-- ==== Sys2Proof/Word.lean ====
section
/-! DEFINITION. The machine words of CORE and the plainest arithmetic on them: bytes, 16-bit words, 12-bit addresses,
4-bit fields (00_scope.md R7, R10; 30_encoding.md R64). -/

namespace Sys2Proof

/-- An 8-bit value, the spec's `u8` (00_scope.md R10). -/
abbrev Byte := BitVec 8

/-- A 16-bit value, the spec's `u16` (00_scope.md R10). -/
abbrev Word := BitVec 16

/-- A 12-bit address, the field `nnn` (30_encoding.md R68). -/
abbrev Addr := BitVec 12

/-- A 4-bit value, the field `n` (30_encoding.md R69). -/
abbrev Nibble := BitVec 4

/-- The number of a general register, the fields `x` and `y`; all 16 values are legal (30_encoding.md R66). -/
abbrev RegIdx := BitVec 4

/-- `b2n(c)`: 1 if `c` is true and 0 otherwise (00_scope.md R10). -/
def b2n (c : Bool) : Byte := if c then 1 else 0

@[simp] theorem b2n_true : b2n true = 1 := rfl

@[simp] theorem b2n_false : b2n false = 0 := rfl

end Sys2Proof
end

