-- ==== Sys2Proof/Syntax.lean ====
section
/-! DEFINITION. The instructions of CORE: one constructor for each of the 34 rows of 30_encoding.md R72 (and of
spec/opcode_table.json), in the table's order. An operand has the width of its field, so no value of this type holds a
register number, immediate or address that does not fit (30_encoding.md R66-R69). -/

namespace Sys2Proof

/-- One instruction of CORE (30_encoding.md R70, R72). -/
inductive Instr where
  /-- `00E0` CLS -/
  | cls
  /-- `00EE` RET -/
  | ret
  /-- `1nnn` JP addr -/
  | jp (nnn : Addr)
  /-- `2nnn` CALL addr -/
  | call (nnn : Addr)
  /-- `3xkk` SE Vx, byte -/
  | seImm (x : RegIdx) (kk : Byte)
  /-- `4xkk` SNE Vx, byte -/
  | sneImm (x : RegIdx) (kk : Byte)
  /-- `5xy0` SE Vx, Vy -/
  | seReg (x y : RegIdx)
  /-- `9xy0` SNE Vx, Vy -/
  | sneReg (x y : RegIdx)
  /-- `6xkk` LD Vx, byte -/
  | ldImm (x : RegIdx) (kk : Byte)
  /-- `7xkk` ADD Vx, byte -/
  | addImm (x : RegIdx) (kk : Byte)
  /-- `8xy0` LD Vx, Vy -/
  | ldReg (x y : RegIdx)
  /-- `8xy1` OR Vx, Vy -/
  | orReg (x y : RegIdx)
  /-- `8xy2` AND Vx, Vy -/
  | andReg (x y : RegIdx)
  /-- `8xy3` XOR Vx, Vy -/
  | xorReg (x y : RegIdx)
  /-- `8xy4` ADD Vx, Vy -/
  | addReg (x y : RegIdx)
  /-- `8xy5` SUB Vx, Vy -/
  | subReg (x y : RegIdx)
  /-- `8xy6` SHR Vx, with `y` encoded and ignored -/
  | shr (x y : RegIdx)
  /-- `8xy7` SUBN Vx, Vy -/
  | subnReg (x y : RegIdx)
  /-- `8xyE` SHL Vx, with `y` encoded and ignored -/
  | shl (x y : RegIdx)
  /-- `Annn` LD I, addr -/
  | ldI (nnn : Addr)
  /-- `Bnnn` JP V0, addr -/
  | jpV0 (nnn : Addr)
  /-- `Cxkk` RND Vx, byte -/
  | rnd (x : RegIdx) (kk : Byte)
  /-- `Dxyn` DRW Vx, Vy, nibble -/
  | drw (x y : RegIdx) (n : Nibble)
  /-- `Ex9E` SKP Vx -/
  | skp (x : RegIdx)
  /-- `ExA1` SKNP Vx -/
  | sknp (x : RegIdx)
  /-- `Fx07` LD Vx, DT -/
  | ldXDt (x : RegIdx)
  /-- `Fx15` LD DT, Vx -/
  | ldDtX (x : RegIdx)
  /-- `Fx18` LD ST, Vx -/
  | ldStX (x : RegIdx)
  /-- `Fx0A` LD Vx, K -/
  | ldXK (x : RegIdx)
  /-- `Fx1E` ADD I, Vx -/
  | addIX (x : RegIdx)
  /-- `Fx29` LD F, Vx -/
  | ldFX (x : RegIdx)
  /-- `Fx33` LD B, Vx -/
  | ldBX (x : RegIdx)
  /-- `Fx55` LD [I], Vx -/
  | ldMemX (x : RegIdx)
  /-- `Fx65` LD Vx, [I] -/
  | ldXMem (x : RegIdx)
  deriving DecidableEq, Repr

end Sys2Proof
end

