-- ==== Sys2Proof/WellFormed.lean ====
section
/-! DEFINITION. Well-formed instructions. A line of the assembler form of 30_encoding.md R77 is a row of the opcode table with
plain numbers for its operands; it is well formed when the row exists, the operands are as many as its format has, and each
fits its field. A value that does not fit is an error, never a truncation (30_encoding.md R79). Every term of `Instr` names
such a line, because its operands have the fields' widths. -/

namespace Sys2Proof

/-- The six instruction formats (30_encoding.md R65). -/
inductive Format where
  /-- no field -/
  | fNone
  /-- `nnn` -/
  | fNnn
  /-- `x`, `kk` -/
  | fXkk
  /-- `x`, `y` -/
  | fXy
  /-- `x`, `y`, `n` -/
  | fXyn
  /-- `x` -/
  | fX
  deriving DecidableEq, Repr

/-- The widths of a format's operand fields, in the order the operands are written (30_encoding.md R64, R65). -/
def Format.widths : Format → List Nat
  | .fNone => []
  | .fNnn => [12]
  | .fXkk => [4, 8]
  | .fXy => [4, 4]
  | .fXyn => [4, 4, 4]
  | .fX => [4]

/-- The format of each row of the opcode table, by the row's number (30_encoding.md R72, columns # and format). -/
def rowFormat : Nat → Option Format
  | 1 | 2 => some .fNone
  | 3 | 4 | 20 | 21 => some .fNnn
  | 5 | 6 | 9 | 10 | 22 => some .fXkk
  | 7 | 8 | 11 | 12 | 13 | 14 | 15 | 16 | 17 | 18 | 19 => some .fXy
  | 23 => some .fXyn
  | 24 | 25 | 26 | 27 | 28 | 29 | 30 | 31 | 32 | 33 | 34 => some .fX
  | _ => none

/-- The rows whose last operand may be omitted, `{, Vy}`: 8xy6 and 8xyE (30_encoding.md R77). -/
def rowMayOmitVy (row : Nat) : Bool := row == 17 || row == 19

/-- One line of assembler: the row of the opcode table its syntax names, and the numbers written for its operands. -/
structure AsmLine where
  row : Nat
  operands : List Nat
  deriving DecidableEq, Repr

/-- Why a line is refused (30_encoding.md R79). -/
inductive AsmError where
  /-- no row of 30_encoding.md R72 has this number -/
  | noSuchRow
  /-- more or fewer operands than the row's format has -/
  | wrongOperandCount
  /-- an operand whose value does not fit its field of the given width -/
  | doesNotFit (value width : Nat)
  deriving DecidableEq, Repr

/-- The operands with an omitted `Vy` filled in as 0 (30_encoding.md R77: "in which case `y = 0` is assembled"). -/
def AsmLine.filled (l : AsmLine) : List Nat :=
  match l.operands with
  | [x] => if rowMayOmitVy l.row then [x, 0] else [x]
  | ops => ops

/-- The first operand that does not fit the field of its width, if any. -/
def firstUnfit : List Nat → List Nat → Option AsmError
  | v :: vs, w :: ws => if v < 2 ^ w then firstUnfit vs ws else some (.doesNotFit v w)
  | _, _ => none

/-- Check one line: none if it is well formed, else why it is not (30_encoding.md R77, R79). -/
def AsmLine.check (l : AsmLine) : Option AsmError :=
  match rowFormat l.row with
  | none => some .noSuchRow
  | some f =>
    if l.filled.length = f.widths.length then firstUnfit l.filled f.widths else some .wrongOperandCount

/-- A line is well formed when nothing is wrong with it. -/
abbrev AsmLine.WellFormed (l : AsmLine) : Prop := l.check = none

/-- The line that names an instruction: its row of 30_encoding.md R72 and its operands as numbers. -/
def Instr.toLine : Instr → AsmLine
  | .cls => ⟨1, []⟩
  | .ret => ⟨2, []⟩
  | .jp nnn => ⟨3, [nnn.toNat]⟩
  | .call nnn => ⟨4, [nnn.toNat]⟩
  | .seImm x kk => ⟨5, [x.toNat, kk.toNat]⟩
  | .sneImm x kk => ⟨6, [x.toNat, kk.toNat]⟩
  | .seReg x y => ⟨7, [x.toNat, y.toNat]⟩
  | .sneReg x y => ⟨8, [x.toNat, y.toNat]⟩
  | .ldImm x kk => ⟨9, [x.toNat, kk.toNat]⟩
  | .addImm x kk => ⟨10, [x.toNat, kk.toNat]⟩
  | .ldReg x y => ⟨11, [x.toNat, y.toNat]⟩
  | .orReg x y => ⟨12, [x.toNat, y.toNat]⟩
  | .andReg x y => ⟨13, [x.toNat, y.toNat]⟩
  | .xorReg x y => ⟨14, [x.toNat, y.toNat]⟩
  | .addReg x y => ⟨15, [x.toNat, y.toNat]⟩
  | .subReg x y => ⟨16, [x.toNat, y.toNat]⟩
  | .shr x y => ⟨17, [x.toNat, y.toNat]⟩
  | .subnReg x y => ⟨18, [x.toNat, y.toNat]⟩
  | .shl x y => ⟨19, [x.toNat, y.toNat]⟩
  | .ldI nnn => ⟨20, [nnn.toNat]⟩
  | .jpV0 nnn => ⟨21, [nnn.toNat]⟩
  | .rnd x kk => ⟨22, [x.toNat, kk.toNat]⟩
  | .drw x y n => ⟨23, [x.toNat, y.toNat, n.toNat]⟩
  | .skp x => ⟨24, [x.toNat]⟩
  | .sknp x => ⟨25, [x.toNat]⟩
  | .ldXDt x => ⟨26, [x.toNat]⟩
  | .ldDtX x => ⟨27, [x.toNat]⟩
  | .ldStX x => ⟨28, [x.toNat]⟩
  | .ldXK x => ⟨29, [x.toNat]⟩
  | .addIX x => ⟨30, [x.toNat]⟩
  | .ldFX x => ⟨31, [x.toNat]⟩
  | .ldBX x => ⟨32, [x.toNat]⟩
  | .ldMemX x => ⟨33, [x.toNat]⟩
  | .ldXMem x => ⟨34, [x.toNat]⟩

/-- An instruction is well formed when the line that names it is. The widths of `Instr`'s operands make this hold of every
instruction (Laws/PerInstr.lean). -/
abbrev Instr.WellFormed (i : Instr) : Prop := i.toLine.WellFormed

end Sys2Proof
end

