-- ==== Sys2Proof/Decode.lean ====
section
/-! DEFINITION. Decoding and encoding. `decode` follows 30_encoding.md R70 and is total on words; `decodeBytes` is total on
any bytes and rejects by name. `encode` follows the Encoding line of each instruction's rule; `opcodeTable` is 30_encoding.md
R72 by mask and match; `AsmLine.assemble` fills a row's pattern with operands (30_encoding.md R79). -/

namespace Sys2Proof

/-- `class`, bits 15:12 (30_encoding.md R64). -/
def classOf (w : Word) : Nibble := w.extractLsb' 12 4

/-- `x`, bits 11:8. -/
def xOf (w : Word) : RegIdx := w.extractLsb' 8 4

/-- `y`, bits 7:4. -/
def yOf (w : Word) : RegIdx := w.extractLsb' 4 4

/-- `n`, bits 3:0. -/
def nOf (w : Word) : Nibble := w.extractLsb' 0 4

/-- `kk`, bits 7:0. -/
def kkOf (w : Word) : Byte := w.extractLsb' 0 8

/-- `nnn`, bits 11:0. -/
def nnnOf (w : Word) : Addr := w.extractLsb' 0 12

/-- Why bytes are not an instruction. -/
inductive DecodeError where
  /-- the word matches no row of the opcode table (30_encoding.md R73) -/
  | illegal (w : Word)
  /-- fewer than the two bytes every instruction has (30_encoding.md R63) -/
  | truncated
  deriving DecidableEq, Repr

/-- Class 0: only the whole words 00E0 and 00EE are legal (30_encoding.md R70; 90_conflicts.md C3). -/
def decodeClass0 (w : Word) : Except DecodeError Instr :=
  if w = 0x00E0#16 then .ok .cls else if w = 0x00EE#16 then .ok .ret else .error (.illegal w)

/-- Class 8: the register operations, selected by `n` (30_encoding.md R70). -/
def decodeClass8 (w : Word) : Except DecodeError Instr :=
  match nOf w with
  | 0x0#4 => .ok (.ldReg (xOf w) (yOf w))
  | 0x1#4 => .ok (.orReg (xOf w) (yOf w))
  | 0x2#4 => .ok (.andReg (xOf w) (yOf w))
  | 0x3#4 => .ok (.xorReg (xOf w) (yOf w))
  | 0x4#4 => .ok (.addReg (xOf w) (yOf w))
  | 0x5#4 => .ok (.subReg (xOf w) (yOf w))
  | 0x6#4 => .ok (.shr (xOf w) (yOf w))
  | 0x7#4 => .ok (.subnReg (xOf w) (yOf w))
  | 0xE#4 => .ok (.shl (xOf w) (yOf w))
  | _ => .error (.illegal w)

/-- Class E: the key skips, selected by `kk` (30_encoding.md R70). -/
def decodeClassE (w : Word) : Except DecodeError Instr :=
  match kkOf w with
  | 0x9E#8 => .ok (.skp (xOf w))
  | 0xA1#8 => .ok (.sknp (xOf w))
  | _ => .error (.illegal w)

/-- Class F: timers, key wait, `I` arithmetic, font, BCD and block transfer, selected by `kk` (30_encoding.md R70). -/
def decodeClassF (w : Word) : Except DecodeError Instr :=
  match kkOf w with
  | 0x07#8 => .ok (.ldXDt (xOf w))
  | 0x0A#8 => .ok (.ldXK (xOf w))
  | 0x15#8 => .ok (.ldDtX (xOf w))
  | 0x18#8 => .ok (.ldStX (xOf w))
  | 0x1E#8 => .ok (.addIX (xOf w))
  | 0x29#8 => .ok (.ldFX (xOf w))
  | 0x33#8 => .ok (.ldBX (xOf w))
  | 0x55#8 => .ok (.ldMemX (xOf w))
  | 0x65#8 => .ok (.ldXMem (xOf w))
  | _ => .error (.illegal w)

/-- The decoder: a total function from words to an instruction or ILLEGAL (30_encoding.md R70, R80). -/
def decode (w : Word) : Except DecodeError Instr :=
  match classOf w with
  | 0x0#4 => decodeClass0 w
  | 0x1#4 => .ok (.jp (nnnOf w))
  | 0x2#4 => .ok (.call (nnnOf w))
  | 0x3#4 => .ok (.seImm (xOf w) (kkOf w))
  | 0x4#4 => .ok (.sneImm (xOf w) (kkOf w))
  | 0x5#4 => if nOf w = 0 then .ok (.seReg (xOf w) (yOf w)) else .error (.illegal w)
  | 0x6#4 => .ok (.ldImm (xOf w) (kkOf w))
  | 0x7#4 => .ok (.addImm (xOf w) (kkOf w))
  | 0x8#4 => decodeClass8 w
  | 0x9#4 => if nOf w = 0 then .ok (.sneReg (xOf w) (yOf w)) else .error (.illegal w)
  | 0xA#4 => .ok (.ldI (nnnOf w))
  | 0xB#4 => .ok (.jpV0 (nnnOf w))
  | 0xC#4 => .ok (.rnd (xOf w) (kkOf w))
  | 0xD#4 => .ok (.drw (xOf w) (yOf w) (nOf w))
  | 0xE#4 => decodeClassE w
  | 0xF#4 => decodeClassF w
  | _ => .error (.illegal w)

/-- The word of two bytes: the first is the high one (20_memory.md R47). -/
def wordOfBytes (hi lo : Byte) : Word := (hi.setWidth 16 <<< 8) ||| lo.setWidth 16

/-- The two bytes of a word in memory order, the high one at the lower address (20_memory.md R47). -/
def bytesOfWord (w : Word) : List Byte := [w.extractLsb' 8 8, w.extractLsb' 0 8]

/-- Decode the first instruction of any bytes, with the bytes after it (30_encoding.md R63: always two bytes). -/
def decodeBytes : List Byte → Except DecodeError (Instr × List Byte)
  | hi :: lo :: rest =>
    match decode (wordOfBytes hi lo) with
    | .ok i => .ok (i, rest)
    | .error e => .error e
  | _ => .error .truncated

/-- `x << 8`. -/
def atX (x : RegIdx) : Word := x.setWidth 16 <<< 8

/-- `y << 4`. -/
def atY (y : RegIdx) : Word := y.setWidth 16 <<< 4

/-- The word of an instruction: the Encoding line of its rule, R93 to R130. -/
def encode : Instr → Word
  | .cls => 0x00E0
  | .ret => 0x00EE
  | .jp nnn => 0x1000 ||| nnn.setWidth 16
  | .call nnn => 0x2000 ||| nnn.setWidth 16
  | .seImm x kk => 0x3000 ||| atX x ||| kk.setWidth 16
  | .sneImm x kk => 0x4000 ||| atX x ||| kk.setWidth 16
  | .seReg x y => 0x5000 ||| atX x ||| atY y
  | .sneReg x y => 0x9000 ||| atX x ||| atY y
  | .ldImm x kk => 0x6000 ||| atX x ||| kk.setWidth 16
  | .addImm x kk => 0x7000 ||| atX x ||| kk.setWidth 16
  | .ldReg x y => 0x8000 ||| atX x ||| atY y
  | .orReg x y => 0x8001 ||| atX x ||| atY y
  | .andReg x y => 0x8002 ||| atX x ||| atY y
  | .xorReg x y => 0x8003 ||| atX x ||| atY y
  | .addReg x y => 0x8004 ||| atX x ||| atY y
  | .subReg x y => 0x8005 ||| atX x ||| atY y
  | .shr x y => 0x8006 ||| atX x ||| atY y
  | .subnReg x y => 0x8007 ||| atX x ||| atY y
  | .shl x y => 0x800E ||| atX x ||| atY y
  | .ldI nnn => 0xA000 ||| nnn.setWidth 16
  | .jpV0 nnn => 0xB000 ||| nnn.setWidth 16
  | .rnd x kk => 0xC000 ||| atX x ||| kk.setWidth 16
  | .drw x y n => 0xD000 ||| atX x ||| atY y ||| n.setWidth 16
  | .skp x => 0xE09E ||| atX x
  | .sknp x => 0xE0A1 ||| atX x
  | .ldXDt x => 0xF007 ||| atX x
  | .ldDtX x => 0xF015 ||| atX x
  | .ldStX x => 0xF018 ||| atX x
  | .ldXK x => 0xF00A ||| atX x
  | .addIX x => 0xF01E ||| atX x
  | .ldFX x => 0xF029 ||| atX x
  | .ldBX x => 0xF033 ||| atX x
  | .ldMemX x => 0xF055 ||| atX x
  | .ldXMem x => 0xF065 ||| atX x

/-- One row of the opcode table: its number, match and mask (30_encoding.md R72). -/
abbrev OpcodeRow := Nat × Word × Word

/-- A word is the instruction of a row when `w & mask == match` (30_encoding.md R72). -/
def OpcodeRow.matches (r : OpcodeRow) (w : Word) : Bool := w &&& r.2.2 == r.2.1

/-- Rows 1 to 19 of 30_encoding.md R72. -/
def opcodeRowsLow : List OpcodeRow :=
  [(1, 0x00E0, 0xFFFF), (2, 0x00EE, 0xFFFF), (3, 0x1000, 0xF000), (4, 0x2000, 0xF000), (5, 0x3000, 0xF000),
   (6, 0x4000, 0xF000), (7, 0x5000, 0xF00F), (8, 0x9000, 0xF00F), (9, 0x6000, 0xF000), (10, 0x7000, 0xF000)] ++
  [(11, 0x8000, 0xF00F), (12, 0x8001, 0xF00F), (13, 0x8002, 0xF00F), (14, 0x8003, 0xF00F), (15, 0x8004, 0xF00F),
   (16, 0x8005, 0xF00F), (17, 0x8006, 0xF00F), (18, 0x8007, 0xF00F), (19, 0x800E, 0xF00F)]

/-- Rows 20 to 34 of 30_encoding.md R72. -/
def opcodeRowsHigh : List OpcodeRow :=
  [(20, 0xA000, 0xF000), (21, 0xB000, 0xF000), (22, 0xC000, 0xF000), (23, 0xD000, 0xF000), (24, 0xE09E, 0xF0FF),
   (25, 0xE0A1, 0xF0FF), (26, 0xF007, 0xF0FF), (27, 0xF015, 0xF0FF), (28, 0xF018, 0xF0FF), (29, 0xF00A, 0xF0FF)] ++
  [(30, 0xF01E, 0xF0FF), (31, 0xF029, 0xF0FF), (32, 0xF033, 0xF0FF), (33, 0xF055, 0xF0FF), (34, 0xF065, 0xF0FF)]

/-- The complete opcode table, in the spec's order (30_encoding.md R72). -/
def opcodeTable : List OpcodeRow := opcodeRowsLow ++ opcodeRowsHigh

/-- A row's match word with operand values in the fields of its format (30_encoding.md R65, R79). -/
def fillPattern (f : Format) (pattern : Word) : List Nat → Word
  | [a] => if f = .fNnn then pattern ||| BitVec.ofNat 16 a else pattern ||| (BitVec.ofNat 16 a <<< 8)
  | [a, b] => pattern ||| (BitVec.ofNat 16 a <<< 8) ||| (if f = .fXkk then BitVec.ofNat 16 b else BitVec.ofNat 16 b <<< 4)
  | [a, b, c] => pattern ||| (BitVec.ofNat 16 a <<< 8) ||| (BitVec.ofNat 16 b <<< 4) ||| BitVec.ofNat 16 c
  | _ => pattern

/-- Assemble one line: the word of its row's pattern with the fields filled in, or the reason it is refused
(30_encoding.md R79). -/
def AsmLine.assemble (l : AsmLine) : Except AsmError Word :=
  match l.check with
  | some e => .error e
  | none =>
    match opcodeTable.find? (fun r => r.1 == l.row), rowFormat l.row with
    | some r, some f => .ok (fillPattern f r.2.1 l.filled)
    | _, _ => .error .noSuchRow

/-- The instruction the decoder reads from a table word `w` of `nbits` bits: the two bytes as they lie in memory, the high one
first (20_memory.md R47), given to `decodeBytes`; none where it refuses. -/
def decodeTableWord (nbits w : Nat) : Option Instr :=
  match decodeBytes (bytesOfWord (BitVec.ofNat 16 (w % 2 ^ nbits))) with
  | .ok (i, _) => some i
  | .error _ => none

end Sys2Proof
end

