-- ==== Sys2Proof/Config.lean ====
section
/-! DEFINITION. What is fixed for the machine (00_scope.md R7) and the free values the spec leaves open (00_scope.md R19).
The parameters whose value a test could show wrong stand where a repair may mend them: the font bytes in Machine/Ops.lean,
the value of `FLAG_WRITE_ORDER` in Machine/Flags.lean. -/

namespace Sys2Proof.Config

/-- `MEM_SIZE`: the bytes of memory, addresses 0x000 to 0xFFF (00_scope.md R7, 20_memory.md R45). -/
abbrev memSize : Nat := 4096

/-- `PROG_BASE`: where Load puts an image (00_scope.md R7, 70_reset_and_hazards.md R155). -/
abbrev progBase : Nat := 0x200

/-- `LOAD_LIMIT`: the longest image Load accepts (00_scope.md R7, 70_reset_and_hazards.md R155). -/
abbrev loadLimit : Nat := 3583

/-- `STACK_DEPTH`: the slots of the call stack (00_scope.md R7, 10_state.md R32). -/
abbrev stackDepth : Nat := 16

/-- The values of the parameter `FLAG_WRITE_ORDER`: which of the flag and the result is written first when one instruction
writes both (43_alu.md R106). -/
inductive FlagWriteOrder where
  /-- `VF <- flag; V[x] <- res` -/
  | flagThenResult
  /-- `V[x] <- res; VF <- flag` -/
  | resultThenFlag
  deriving DecidableEq, Repr

/-- FREE VALUE (assumption log 4). The random byte source: the draw that the k-th Cycle carries when the host has scheduled
no draw of its own. It has no body: the spec admits every value of `rnd` at every Cycle, under no law (10_state.md R40). -/
opaque freeDraw : Nat → Byte

end Sys2Proof.Config
end

