-- ==== Sys2Proof/Machine/State.lean ====
section
/-! DEFINITION. The state of CORE as plain data: the record of 10_state.md R43, field by field under the spec's names, and
beside it the model's own fields for what the host supplies and receives (the draw of a Cycle, the operations to come, the
last result). The reset values are those of 10_state.md R44. -/

namespace Sys2Proof.Machine

open Sys2Proof

/-- The causes of a fault (60_exceptions.md R132). -/
inductive FaultCause where
  /-- a word that matches no row of the opcode table -/
  | illegalInstruction
  /-- 2nnn with the stack full -/
  | stackOverflow
  /-- 00EE with the stack empty -/
  | stackUnderflow
  /-- a fetch whose second byte lies above 0xFFF -/
  | fetchOutOfRange
  /-- a data access above 0xFFF -/
  | dataOutOfRange
  /-- a key number above 15 -/
  | keyOutOfRange
  deriving DecidableEq, Repr

/-- One fault record `(cause, pc, info)` (60_exceptions.md R131). `info` is a number: the lowest out-of-range address may
need more than 16 bits (20_memory.md R49). -/
structure FaultRecord where
  cause : FaultCause
  pc : Word
  info : Nat
  deriving DecidableEq, Repr

/-- Memory: the bytes that differ from their value after PowerOn, as (address, byte) pairs (20_memory.md R45; the canonical
form is `Memory.wf` of Machine/Ops.lean). -/
abbrev Memory := List Host.Cell

/-- The display: 32 rows of 64 one-bit pixels, row 0 at the top, column 0 leftmost (10_state.md R33). -/
abbrev Display := Vector (Vector Bool 64) 32

/-- What Load is given: the bytes of an image, or a read failure of some kind (10_state.md R38). -/
inductive ImageSource where
  | bytes (image : List Byte)
  | readFailed (kind : Nat)
  deriving DecidableEq, Repr

/-- What Load returns (70_reset_and_hazards.md R155). -/
inductive LoadResult where
  | loadOk
  | romTooLarge (size : Nat)
  | ioError (kind : Nat)
  deriving DecidableEq, Repr

/-- The operations of CORE's interface, which the host calls in any order and number (10_state.md R38, R39). -/
inductive HostOp where
  /-- PowerOn: construct the machine (70_reset_and_hazards.md R153) -/
  | powerOn
  /-- Load an image (70_reset_and_hazards.md R155) -/
  | load (source : ImageSource)
  /-- SetKeys: bit j of `k` is key j pressed (60_exceptions.md R150) -/
  | setKeys (k : Word)
  /-- Cycle with a draw the host chose (10_state.md R40) -/
  | cycle (rnd : Byte)
  /-- Tick: one timer tick (60_exceptions.md R146) -/
  | tick
  /-- Observe: read the state (10_state.md R41) -/
  | observe
  deriving DecidableEq, Repr

/-- The complete state of CORE as the host observes it: the record of 10_state.md R43 (R41). -/
structure Observation where
  mem : Memory
  V : Vector Byte 16
  I : Word
  pc : Word
  SP : Byte
  stack : Vector Word 16
  DT : Byte
  ST : Byte
  disp : Display
  keys : Word
  fault : Option FaultRecord
  deriving DecidableEq, Repr

/-- What an operation returns to the host (10_state.md R38, R42). -/
inductive HostResult where
  /-- a Cycle that returned OK -/
  | ok
  /-- a Cycle that returned FAULT(cause, pc, info) -/
  | fault (r : FaultRecord)
  /-- the result of a Load -/
  | load (r : LoadResult)
  /-- what Observe read -/
  | observed (o : Observation)
  deriving DecidableEq, Repr

/-- The state of the machine. The first eleven fields are the spec's record (10_state.md R43); the last four are the
model's own (assumption log 4, 5, 10). -/
structure State where
  /-- memory, 4096 bytes (10_state.md R35) -/
  mem : Memory
  /-- the general registers V0 to VF (10_state.md R20); VF is also the flag (R21) -/
  V : Vector Byte 16
  /-- the address register (10_state.md R26) -/
  I : Word
  /-- the program counter (10_state.md R23) -/
  pc : Word
  /-- the stack pointer, the number of return addresses held (10_state.md R27) -/
  SP : Byte
  /-- the call stack (10_state.md R32) -/
  stack : Vector Word 16
  /-- the delay timer (10_state.md R28) -/
  DT : Byte
  /-- the sound timer (10_state.md R29) -/
  ST : Byte
  /-- the display buffer (10_state.md R33) -/
  disp : Display
  /-- the key latch, bit k for key k (10_state.md R34) -/
  keys : Word
  /-- the fault latch (10_state.md R30) -/
  fault : Option FaultRecord
  /-- MODEL: the draw of the Cycle under way, an input of Cycle (10_state.md R40) -/
  rnd : Byte
  /-- MODEL: how many draws of the free source have been taken -/
  draws : Nat
  /-- MODEL: the operations the host has yet to call, oldest first (10_state.md R39) -/
  inputs : List HostOp
  /-- MODEL: what the last operation returned (10_state.md R42) -/
  out : Option HostResult
  deriving DecidableEq, Repr

/-- Why a step stops with a fault. -/
inductive Fault where
  /-- Raised by the step when the fault latch holds `r` and the host has scheduled no operation: the Cycles to come change no
  state and each returns FAULT again (60_exceptions.md R135). SAFE: the machine goes on only when the host acts (R136), and the
  operations the host has scheduled are all performed. -/
  | latched (r : FaultRecord)
  /-- Raised by 00EE when `SP` is above 16, so that the slot it would read does not exist (10_state.md R27, R32). SAFE: no
  run reaches such a state. -/
  | noStackSlot (sp : Byte)
  deriving DecidableEq, Repr

/-- Why a step is refused. -/
inductive Refusal where
  /-- Raised by `exec` for an instruction that has no meaning yet, under its mnemonic. SAFE. No arm of this model uses it. -/
  | notModelled (mnemonic : String)
  deriving DecidableEq, Repr

/-- The result type of the meanings and of the step. -/
abbrev Result := Host.Outcome State Fault Refusal

/-- The machine right after PowerOn (10_state.md R44; 70_reset_and_hazards.md R153). Memory lists nothing: an unlisted
address reads as after PowerOn. -/
def State.reset : State where
  mem := []
  V := Vector.replicate 16 0
  I := 0
  pc := 0
  SP := 0
  stack := Vector.replicate 16 0
  DT := 0
  ST := 0
  disp := Vector.replicate 32 (Vector.replicate 64 false)
  keys := 0
  fault := none
  rnd := 0
  draws := 0
  inputs := []
  out := none

/-- What the host observes: every piece of the spec's state, read without side effect (10_state.md R41). -/
def State.observe (s : State) : Observation where
  mem := s.mem
  V := s.V
  I := s.I
  pc := s.pc
  SP := s.SP
  stack := s.stack
  DT := s.DT
  ST := s.ST
  disp := s.disp
  keys := s.keys
  fault := s.fault

end Sys2Proof.Machine
end

