-- ==== Sys2Proof/Machine/Ops.lean ====
section
/-! DEFINITION. The named operations over memory, registers, stack, display and keys; taking a fault; the program counter's
advance and skip; fetching an instruction. -/

namespace Sys2Proof.Machine

open Sys2Proof

/-! Memory -/

/-- Glyphs 0 to 7 of the parameter `FONT`, five bytes a glyph (10_state.md R36). -/
def fontLow : List Byte :=
  [0xF0, 0x90, 0x90, 0x90, 0xF0, 0x20, 0x60, 0x20, 0x20, 0x70, 0xF0, 0x10, 0xF0, 0x80, 0xF0, 0xF0, 0x10, 0xF0, 0x10, 0xF0] ++
  [0x90, 0x90, 0xF0, 0x10, 0x10, 0xF0, 0x80, 0xF0, 0x10, 0xF0, 0xF0, 0x80, 0xF0, 0x90, 0xF0, 0xF0, 0x10, 0x20, 0x40, 0x40]

/-- Glyphs 8 to F of the parameter `FONT`. -/
def fontHigh : List Byte :=
  [0xF0, 0x90, 0xF0, 0x90, 0xF0, 0xF0, 0x90, 0xF0, 0x10, 0xF0, 0xF0, 0x90, 0xF0, 0x90, 0x90, 0xE0, 0x90, 0xE0, 0x90, 0xE0] ++
  [0xF0, 0x80, 0x80, 0x80, 0xF0, 0xE0, 0x90, 0x90, 0x90, 0xE0, 0xF0, 0x80, 0xF0, 0x80, 0xF0, 0xF0, 0x80, 0xF0, 0x80, 0x80]

/-- PRESUMED (assumption log 2). The parameter `FONT`, 80 bytes at 0x000 to 0x04F: the spec's default, which it takes from
general knowledge (10_state.md R36). A claim about these bytes must say so. -/
def font : List Byte := fontLow ++ fontHigh

/-- What an address reads as after PowerOn, and so what an unlisted address reads as: `FONT` or 0 (10_state.md R35, R44). -/
def initialByte (a : Nat) : Byte := font.getD a 0

/-- The byte at an address. -/
def Memory.read : Memory → Nat → Byte
  | [], a => initialByte a
  | (b, v) :: rest, a => if b = a then v else Memory.read rest a

/-- The entry that makes `a` read as `v`: none where that is what an unlisted address reads as. -/
def cellOf (a : Nat) (v : Byte) : Memory := if v = initialByte a then [] else [(a, v)]

/-- Write one byte, keeping the canonical form. -/
def Memory.write : Memory → Nat → Byte → Memory
  | [], a, v => cellOf a v
  | (b, w) :: rest, a, v =>
    if a < b then cellOf a v ++ (b, w) :: rest
    else if a = b then cellOf a v ++ rest
    else (b, w) :: Memory.write rest a v

/-- The canonical form: addresses strictly rising and inside memory, and no entry equal to what an unlisted address reads as
(assumption log 1). -/
abbrev Memory.wf (m : Memory) : Prop :=
  m.Pairwise (fun c d => c.1 < d.1) ∧ ∀ c ∈ m, c.1 < Config.memSize ∧ c.2 ≠ initialByte c.1

/-- `MemRead(addr, 1)` (00_scope.md R12). Callers check the range first. -/
def State.readByte (s : State) (a : Nat) : Byte := s.mem.read a

/-- `MemWrite(addr, 1, v)` (00_scope.md R12). Callers check the range first. -/
def State.writeByte (s : State) (a : Nat) (v : Byte) : State := { s with mem := s.mem.write a v }

/-- Write bytes at ascending addresses from `a` (20_memory.md R48, R61). -/
def State.writeBytes (s : State) (a : Nat) : List Byte → State
  | [] => s
  | v :: vs => State.writeBytes (s.writeByte a v) (a + 1) vs

/-- The `n` bytes at ascending addresses from `a` (20_memory.md R48). -/
def State.readBytes (s : State) (a n : Nat) : List Byte := (List.range n).map (fun k => s.readByte (a + k))

/-! General registers -/

/-- `V[i]` (00_scope.md R11). -/
def State.reg (s : State) (i : RegIdx) : Byte := s.V.get i.toFin

/-- `V[i] <- v` (00_scope.md R11). -/
def State.setReg (s : State) (i : RegIdx) (v : Byte) : State := { s with V := s.V.set i.toNat v i.isLt }

/-- `VF`, the flag register (10_state.md R21). -/
def VF : RegIdx := 15

/-- Write bytes to the registers from number `k` upward. -/
def State.setRegs (s : State) (k : Nat) : List Byte → State
  | [] => s
  | v :: vs => State.setRegs (s.setReg (BitVec.ofNat 4 k) v) (k + 1) vs

/-- `V0` to `Vx` inclusive, in order (44_index_memory.md R123). -/
def State.regsUpTo (s : State) (x : RegIdx) : List Byte :=
  (List.range (x.toNat + 1)).map (fun k => s.reg (BitVec.ofNat 4 k))

/-! Program counter -/

/-- The default advance `pc <- a + 2` (40_cycle.md R84). Every meaning but one that faults makes it first. -/
def State.advance (s : State) : State := { s with pc := s.pc + 2 }

/-- The default advance and then a skip, `pc <- pc + 2` again, when `c` holds (40_cycle.md R87). -/
def State.advanceSkip (s : State) (c : Bool) : State :=
  if c then { s.advance with pc := s.advance.pc + 2 } else s.advance

/-- `pc <- target` after the default advance. -/
def State.jump (s : State) (target : Word) : State := { s.advance with pc := target }

/-! Faults -/

/-- The numeric code of a cause (60_exceptions.md R132). -/
def FaultCause.code : FaultCause → Nat
  | .illegalInstruction => 1
  | .stackOverflow => 2
  | .stackUnderflow => 3
  | .fetchOutOfRange => 4
  | .dataOutOfRange => 5
  | .keyOutOfRange => 6

/-- The code of the fault latch: 0 for NONE (60_exceptions.md R132). -/
def State.faultCode (s : State) : Nat :=
  match s.fault with
  | none => 0
  | some r => r.cause.code

/-- Taking a fault (60_exceptions.md R134), the one operation every fault goes through: on the state at the start of the Cycle,
with `pc` the address of the instruction, no write is made but to the fault latch. The machine goes on to a next state, in
which the latch holds the record (assumption log 6). -/
def raise (cause : FaultCause) (info : Nat) (s : State) : Result :=
  .next { s with fault := some ⟨cause, s.pc, info⟩ }

/-- There is no return from a fault (60_exceptions.md R136): the latch is cleared, by PowerOn and by a successful Load, and
nothing is restored from the record. -/
def State.clearFault (s : State) : State := { s with fault := none }

/-! Call stack -/

/-- A push writes `stack[SP]` and then increments `SP` (10_state.md R32). -/
def State.push (s : State) (ret : Word) : State :=
  { s with stack := s.stack.setIfInBounds s.SP.toNat ret, SP := s.SP + 1 }

/-- The slot a pop reads, `stack[SP - 1]`, if there is such a slot (10_state.md R32). -/
def State.popSlot (s : State) : Option Word := s.stack[(s.SP - 1).toNat]?

/-- The stack pointer after a pop; the slot keeps its value (10_state.md R32). -/
def State.popSP (s : State) : State := { s with SP := s.SP - 1 }

/-! Display -/

/-- The pixel in row `r`, column `c` (10_state.md R33). -/
def Display.pixel (d : Display) (r : Fin 32) (c : Fin 64) : Bool := (d.get r).get c

/-- Write one pixel. -/
def Display.setPixel (d : Display) (r : Fin 32) (c : Fin 64) (b : Bool) : Display :=
  d.set r.val ((d.get r).set c.val b c.isLt) r.isLt

/-- The display with every pixel off (41_display.md R93). -/
def Display.off : Display := Vector.replicate 32 (Vector.replicate 64 false)

/-- The display row of sprite row `r` drawn at vertical coordinate `vy`: `(vy + r) mod 32` (41_display.md R95). -/
def spriteRow (vy : Byte) (r : Nat) : Fin 32 := Fin.ofNat 32 (vy.toNat + r)

/-- The display column of sprite bit `b` drawn at horizontal coordinate `vx`: `(vx + b) mod 64` (41_display.md R95). -/
def spriteCol (vx : Byte) (b : Nat) : Fin 64 := Fin.ofNat 64 (vx.toNat + b)

/-- Draw one sprite bit on a display with a collision flag so far: XOR the pixel, and collide where both were on
(41_display.md R94, R96). -/
def drawBit (r : Fin 32) (c : Fin 64) (bit : Bool) (dc : Display × Bool) : Display × Bool :=
  (Display.setPixel dc.1 r c (dc.1.pixel r c ^^ bit), dc.2 || (bit && dc.1.pixel r c))

/-- Draw bits `b` to 7 of one sprite byte, where `left` is how many there are: bit 7 of the byte is drawn leftmost
(41_display.md R94). -/
def drawBits (vx : Byte) (row : Fin 32) (sprite : Byte) : Nat → Display × Bool → Display × Bool
  | 0, dc => dc
  | left + 1, dc =>
    drawBits vx row sprite left (drawBit row (spriteCol vx (7 - left)) (sprite.getLsbD left) dc)

/-- Draw the sprite bytes from sprite row `r` on, top to bottom (41_display.md R94). -/
def drawRows (vx vy : Byte) (r : Nat) : List Byte → Display × Bool → Display × Bool
  | [], dc => dc
  | sprite :: rest, dc => drawRows vx vy (r + 1) rest (drawBits vx (spriteRow vy r) sprite 8 dc)

/-! Key latch -/

/-- Whether key `k` is pressed (10_state.md R34). -/
def State.keyDown (s : State) (k : Nat) : Bool := s.keys.getLsbD k

/-- The least pressed key, if any is (45_keys_timers.md R128). -/
def State.leastKey (s : State) : Option Nat := (List.range 16).find? (fun k => s.keyDown k)

/-! Fetch -/

/-- The word at `pc`, two bytes with the high one first, or none when the second byte lies above 0xFFF
(40_cycle.md R82; 20_memory.md R47). -/
def State.fetch (s : State) : Option Word :=
  if s.pc.toNat > 0xFFE then none
  else some (wordOfBytes (s.readByte s.pc.toNat) (s.readByte (s.pc.toNat + 1)))

end Sys2Proof.Machine
end

