-- ==== Sys2Proof/Machine/Flags.lean ====
section
/-! DEFINITION. Every flag computation: the results of the flag-writing instructions with the flag each gives, exact on
natural numbers and narrowed at the end, and the order in which flag and result are written (43_alu.md R106, R112-R117). -/

namespace Sys2Proof.Machine

open Sys2Proof

/-- The parameter `FLAG_WRITE_ORDER` of this hardware (43_alu.md R106; 92_eei_decisions.md D8; assumption log 3). -/
def flagWriteOrder : Config.FlagWriteOrder := .flagThenResult

/-- `write_flag_result(x, flag, res)` under a given order (43_alu.md R106). -/
def writeFlagResult (order : Config.FlagWriteOrder) (x : RegIdx) (flag : Bool) (res : Byte) (s : State) : State :=
  match order with
  | .flagThenResult => (s.setReg VF (b2n flag)).setReg x res
  | .resultThenFlag => (s.setReg x res).setReg VF (b2n flag)

/-- 8xy4: carry out and the low 8 bits of the sum (43_alu.md R112). -/
def addFlag (vx vy : Byte) : Bool × Byte :=
  (decide (vx.toNat + vy.toNat > 255), BitVec.ofNat 8 (vx.toNat + vy.toNat))

/-- `a - b` with the no-borrow flag `a >= b`: 8xy5 with (Vx, Vy), 8xy7 with (Vy, Vx) (43_alu.md R113, R115). -/
def subFlag (a b : Byte) : Bool × Byte := (decide (a.toNat ≥ b.toNat), a - b)

/-- 8xy6: the old bit 0 and the logical shift right by one (43_alu.md R114). -/
def shrFlag (vx : Byte) : Bool × Byte := (vx.getLsbD 0, vx >>> 1)

/-- 8xyE: the old bit 7 and the shift left by one, low 8 bits kept (43_alu.md R116). -/
def shlFlag (vx : Byte) : Bool × Byte := (vx.getLsbD 7, vx <<< 1)

/-- Finish a flag-writing instruction with the flag and result computed from its operands (43_alu.md R106). -/
def finishFlag (x : RegIdx) (fr : Bool × Byte) (s : State) : Result :=
  .next (writeFlagResult flagWriteOrder x fr.1 fr.2 s.advance)

end Sys2Proof.Machine
end

