-- ==== Sys2Proof/Machine/Alu.lean ====
section
/-! DEFINITION. Register arithmetic: 6xkk, 7xkk, 8xy0 to 8xyE and Cxkk (43_alu.md). Operands are read before the first write
(40_cycle.md R90). -/

namespace Sys2Proof.Machine

open Sys2Proof

/-- 6xkk LD: `Vx <- kk` (43_alu.md R105). -/
def execLdImm (x : RegIdx) (kk : Byte) (s : State) : Result := .next (s.advance.setReg x kk)

/-- 7xkk ADD: `Vx <- Vx + kk` modulo 256, no flag (43_alu.md R107). -/
def execAddImm (x : RegIdx) (kk : Byte) (s : State) : Result := .next (s.advance.setReg x (s.reg x + kk))

/-- 8xy0 LD: `Vx <- Vy` (43_alu.md R108). -/
def execLdReg (x y : RegIdx) (s : State) : Result := .next (s.advance.setReg x (s.reg y))

/-- 8xy1 OR, `VF` not reset (43_alu.md R109). -/
def execOrReg (x y : RegIdx) (s : State) : Result := .next (s.advance.setReg x (s.reg x ||| s.reg y))

/-- 8xy2 AND, `VF` not reset (43_alu.md R110). -/
def execAndReg (x y : RegIdx) (s : State) : Result := .next (s.advance.setReg x (s.reg x &&& s.reg y))

/-- 8xy3 XOR, `VF` not reset (43_alu.md R111). -/
def execXorReg (x y : RegIdx) (s : State) : Result := .next (s.advance.setReg x (s.reg x ^^^ s.reg y))

/-- 8xy4 ADD with carry out to `VF` (43_alu.md R112). -/
def execAddReg (x y : RegIdx) (s : State) : Result := finishFlag x (addFlag (s.reg x) (s.reg y)) s

/-- 8xy5 SUB: `Vx - Vy` with the no-borrow flag (43_alu.md R113). -/
def execSubReg (x y : RegIdx) (s : State) : Result := finishFlag x (subFlag (s.reg x) (s.reg y)) s

/-- 8xy6 SHR: `Vx` shifted right by one; `y` is not read (43_alu.md R114). -/
def execShr (x _y : RegIdx) (s : State) : Result := finishFlag x (shrFlag (s.reg x)) s

/-- 8xy7 SUBN: `Vy - Vx` with the no-borrow flag (43_alu.md R115). -/
def execSubnReg (x y : RegIdx) (s : State) : Result := finishFlag x (subFlag (s.reg y) (s.reg x)) s

/-- 8xyE SHL: `Vx` shifted left by one; `y` is not read (43_alu.md R116). -/
def execShl (x _y : RegIdx) (s : State) : Result := finishFlag x (shlFlag (s.reg x)) s

/-- Cxkk RND: the draw this Cycle carries, AND `kk` (43_alu.md R118; assumption log 4). -/
def execRnd (x : RegIdx) (kk : Byte) (s : State) : Result := .next (s.advance.setReg x (s.rnd &&& kk))

end Sys2Proof.Machine
end

