-- ==== Sys2Proof/Machine/Operands.lean ====
section
/-! DEFINITION. The operand forms: register, byte and address operands as they are read, and the one addressing mode,
`I + k` for a fixed offset `k`, with its range check (44_index_memory.md; 20_memory.md R49, R50). -/

namespace Sys2Proof.Machine

open Sys2Proof

/-- `zext_16(nnn)` (30_encoding.md R68). -/
def zextAddr (nnn : Addr) : Word := nnn.setWidth 16

/-- The effective address `I + k`, an unbounded sum (20_memory.md R49). -/
def State.ea (s : State) (k : Nat) : Nat := s.I.toNat + k

/-- The lowest address above 0xFFF among `base` to `base + n - 1`, if there is one (20_memory.md R50). -/
def lowestOutOfRange (base n : Nat) : Option Nat :=
  ((List.range n).map (fun k => base + k)).find? (fun a => decide (0xFFF < a))

/-- Check the `n` bytes from `I` before anything is written: raise `DATA_OUT_OF_RANGE` with the lowest address out of range,
or go on (20_memory.md R50; 60_exceptions.md R134). -/
def withDataRange (n : Nat) (s : State) (body : Result) : Result :=
  match lowestOutOfRange (s.ea 0) n with
  | some a => raise .dataOutOfRange a s
  | none => body

/-- The key that a register's value numbers: raise `KEY_OUT_OF_RANGE` above 15, or go on with whether it is pressed
(45_keys_timers.md R125, R126). -/
def withKey (k : Byte) (s : State) (body : Bool → Result) : Result :=
  if k.toNat > 15 then raise .keyOutOfRange k.toNat s else body (s.keyDown k.toNat)

/-- The three decimal digits of a byte: hundreds, tens, ones (44_index_memory.md R122). -/
def bcdDigits (v : Byte) : List Byte :=
  [BitVec.ofNat 8 (v.toNat / 100), BitVec.ofNat 8 (v.toNat / 10 % 10), BitVec.ofNat 8 (v.toNat % 10)]

/-- The address of the font glyph of a register's value: `Vx * 5`, not masked (44_index_memory.md R121). -/
def glyphAddress (v : Byte) : Word := BitVec.ofNat 16 (v.toNat * 5)

end Sys2Proof.Machine
end

