-- ==== Sys2Proof/Machine/ControlFlow.lean ====
section
/-! DEFINITION. The control transfers 00EE, 1nnn, 2nnn, 3xkk, 4xkk, 5xy0, 9xy0 and Bnnn (42_control_flow.md). -/

namespace Sys2Proof.Machine

open Sys2Proof

/-- 00EE RET: pop the return address into `pc`, or `STACK_UNDERFLOW` when the stack is empty (42_control_flow.md R97). -/
def execRet (s : State) : Result :=
  if s.SP = 0 then raise .stackUnderflow s.SP.toNat s
  else
    match s.popSlot with
    | some ret => .next (s.popSP.jump ret)
    | none => .fault (.noStackSlot s.SP)

/-- 1nnn JP: `pc <- nnn` (42_control_flow.md R98). -/
def execJp (nnn : Addr) (s : State) : Result := .next (s.jump (zextAddr nnn))

/-- 2nnn CALL: push `a + 2` and go to `nnn`, or `STACK_OVERFLOW` when the stack is full (42_control_flow.md R99). -/
def execCall (nnn : Addr) (s : State) : Result :=
  if s.SP.toNat ≥ Config.stackDepth then raise .stackOverflow s.SP.toNat s
  else .next ((s.push s.advance.pc).jump (zextAddr nnn))

/-- 3xkk SE: skip if `Vx` equals `kk` (42_control_flow.md R100). -/
def execSeImm (x : RegIdx) (kk : Byte) (s : State) : Result := .next (s.advanceSkip (s.reg x == kk))

/-- 4xkk SNE: skip if `Vx` differs from `kk` (42_control_flow.md R101). -/
def execSneImm (x : RegIdx) (kk : Byte) (s : State) : Result := .next (s.advanceSkip (s.reg x != kk))

/-- 5xy0 SE: skip if `Vx` equals `Vy` (42_control_flow.md R102). -/
def execSeReg (x y : RegIdx) (s : State) : Result := .next (s.advanceSkip (s.reg x == s.reg y))

/-- 9xy0 SNE: skip if `Vx` differs from `Vy` (42_control_flow.md R103). -/
def execSneReg (x y : RegIdx) (s : State) : Result := .next (s.advanceSkip (s.reg x != s.reg y))

/-- Bnnn JP V0: `pc <- nnn + V0`, not reduced to 12 bits (42_control_flow.md R104). -/
def execJpV0 (nnn : Addr) (s : State) : Result := .next (s.jump (zextAddr nnn + (s.reg 0).setWidth 16))

end Sys2Proof.Machine
end

