-- ==== Sys2Proof/Machine/Display.lean ====
section
/-! DEFINITION. The display instructions 00E0 and Dxyn (41_display.md). -/

namespace Sys2Proof.Machine

open Sys2Proof

/-- 00E0 CLS: every pixel off (41_display.md R93). -/
def execCls (s : State) : Result := .next { s.advance with disp := Display.off }

/-- Dxyn DRW: XOR the `n` sprite bytes at `I` onto the display at (`Vx`, `Vy`), then `VF` is the collision flag
(41_display.md R94). -/
def execDrw (x y : RegIdx) (n : Nibble) (s : State) : Result :=
  let vx := s.reg x
  let vy := s.reg y
  withDataRange n.toNat s
    (let drawn := drawRows vx vy 0 (s.readBytes (s.ea 0) n.toNat) (s.disp, false)
     .next ({ s.advance with disp := drawn.1 }.setReg VF (b2n drawn.2)))

end Sys2Proof.Machine
end

