-- ==== Sys2Proof/Machine/IndexMemory.lean ====
section
/-! DEFINITION. The address register and memory transfers Annn, Fx1E, Fx29, Fx33, Fx55 and Fx65 (44_index_memory.md). -/

namespace Sys2Proof.Machine

open Sys2Proof

/-- Annn LD I: `I <- nnn` (44_index_memory.md R119). -/
def execLdI (nnn : Addr) (s : State) : Result := .next { s.advance with I := zextAddr nnn }

/-- Fx1E ADD I: `I <- I + Vx` modulo 65536, no flag (44_index_memory.md R120). -/
def execAddIX (x : RegIdx) (s : State) : Result := .next { s.advance with I := s.I + (s.reg x).setWidth 16 }

/-- Fx29 LD F: `I <- Vx * 5` (44_index_memory.md R121). -/
def execLdFX (x : RegIdx) (s : State) : Result := .next { s.advance with I := glyphAddress (s.reg x) }

/-- Fx33 LD B: the decimal digits of `Vx` at `I`, `I + 1`, `I + 2` (44_index_memory.md R122). -/
def execLdBX (x : RegIdx) (s : State) : Result :=
  withDataRange 3 s (.next (s.advance.writeBytes (s.ea 0) (bcdDigits (s.reg x))))

/-- Fx55 LD [I]: store `V0` to `Vx` from `I` on; `I` is unchanged (44_index_memory.md R123). -/
def execLdMemX (x : RegIdx) (s : State) : Result :=
  withDataRange (x.toNat + 1) s (.next (s.advance.writeBytes (s.ea 0) (s.regsUpTo x)))

/-- Fx65 LD Vx, [I]: load `V0` to `Vx` from `I` on; `I` is unchanged (44_index_memory.md R124). -/
def execLdXMem (x : RegIdx) (s : State) : Result :=
  withDataRange (x.toNat + 1) s (.next (s.advance.setRegs 0 (s.readBytes (s.ea 0) (x.toNat + 1))))

end Sys2Proof.Machine
end

