-- ==== Sys2Proof/Machine/KeysTimers.lean ====
section
/-! DEFINITION. The key and timer instructions Ex9E, ExA1, Fx07, Fx0A, Fx15 and Fx18 (45_keys_timers.md). -/

namespace Sys2Proof.Machine

open Sys2Proof

/-- Ex9E SKP: skip if the key numbered `Vx` is pressed (45_keys_timers.md R125). -/
def execSkp (x : RegIdx) (s : State) : Result := withKey (s.reg x) s (fun down => .next (s.advanceSkip down))

/-- ExA1 SKNP: skip if the key numbered `Vx` is not pressed (45_keys_timers.md R126). -/
def execSknp (x : RegIdx) (s : State) : Result := withKey (s.reg x) s (fun down => .next (s.advanceSkip (!down)))

/-- Fx07 LD Vx, DT (45_keys_timers.md R127). -/
def execLdXDt (x : RegIdx) (s : State) : Result := .next (s.advance.setReg x s.DT)

/-- Fx15 LD DT, Vx (45_keys_timers.md R129). -/
def execLdDtX (x : RegIdx) (s : State) : Result := .next { s.advance with DT := s.reg x }

/-- Fx18 LD ST, Vx (45_keys_timers.md R130). -/
def execLdStX (x : RegIdx) (s : State) : Result := .next { s.advance with ST := s.reg x }

/-- Fx0A LD Vx, K: with no key pressed `pc` goes back to this instruction and nothing else changes; else `Vx` is the least
pressed key (45_keys_timers.md R128). -/
def execLdXK (x : RegIdx) (s : State) : Result :=
  match s.leastKey with
  | none => .next { s.advance with pc := s.advance.pc - 2 }
  | some k => .next (s.advance.setReg x (BitVec.ofNat 8 k))

end Sys2Proof.Machine
end

