-- ==== Sys2Proof/Machine/Cycle.lean ====
section
/-! DEFINITION. The operations of CORE's interface (10_state.md R38): Cycle (40_cycle.md R81), Tick (60_exceptions.md R146),
SetKeys (R150), Load (70_reset_and_hazards.md R155), PowerOn (R153), Observe (10_state.md R41); and the step, which performs
the operation the host calls next. -/

namespace Sys2Proof.Machine

open Sys2Proof

/-- What a Cycle returns, read off the state it leaves: FAULT when the latch holds a record, else OK (40_cycle.md R81). -/
def State.cycleResult (s : State) : HostResult :=
  match s.fault with
  | none => .ok
  | some r => .fault r

/-- Return from a Cycle: the next state with the Cycle's result as the last result. -/
def returnCycle : Result → Result
  | .next s => .next { s with out := some s.cycleResult }
  | .fault f => .fault f
  | .refused r => .refused r

/-- Fetch, decode and execute, in the order of the checks of 60_exceptions.md R138 (40_cycle.md R81). -/
def fetchExecute (s : State) : Result :=
  match s.fetch with
  | none => raise .fetchOutOfRange s.pc.toNat s
  | some w =>
    match decode w with
    | .error _ => raise .illegalInstruction w.toNat s
    | .ok i => exec i s

/-- `Cycle(rnd)` (40_cycle.md R81). While the latch holds a record it reads no memory, changes no state and returns that FAULT
again (60_exceptions.md R135). -/
def cycle (rnd : Byte) (s : State) : Result :=
  match s.fault with
  | some _ => returnCycle (.next s)
  | none => returnCycle (fetchExecute { s with rnd := rnd })

/-- One timer's decrement, floored at 0 (60_exceptions.md R146). -/
def countDown (t : Byte) : Byte := if t.toNat > 0 then t - 1 else t

/-- `Tick` (60_exceptions.md R146). -/
def tick (s : State) : State := { s with DT := countDown s.DT, ST := countDown s.ST, out := none }

/-- `SetKeys(k)` (60_exceptions.md R150). -/
def setKeys (k : Word) (s : State) : State := { s with keys := k, out := none }

/-- `Load(image)`: a read failure or an image over the limit changes nothing; else the image is copied to 0x200 on, `pc` is
0x200 and the fault latch is cleared (70_reset_and_hazards.md R155-R157). -/
def load (source : ImageSource) (s : State) : State :=
  match source with
  | .readFailed kind => { s with out := some (.load (.ioError kind)) }
  | .bytes image =>
    if image.length > Config.loadLimit then { s with out := some (.load (.romTooLarge image.length)) }
    else { (s.writeBytes Config.progBase image).clearFault with pc := 0x200, out := some (.load .loadOk) }

/-- `PowerOn`: every field of the spec's state at its reset value (70_reset_and_hazards.md R153; assumption log 9). -/
def powerOn (s : State) : State :=
  { State.reset with rnd := s.rnd, draws := s.draws, inputs := s.inputs, out := none }

/-- `Observe`: the state, read without side effect (10_state.md R41). -/
def observe (s : State) : State := { s with out := some (.observed s.observe) }

/-- Perform one operation of the host. -/
def perform (op : HostOp) (s : State) : Result :=
  match op with
  | .powerOn => .next (powerOn s)
  | .load source => .next (load source s)
  | .setKeys k => .next (setKeys k s)
  | .cycle rnd => cycle rnd s
  | .tick => .next (tick s)
  | .observe => .next (observe s)

/-- The next operation: the oldest the host has scheduled, whatever the fault latch holds, or, when it has scheduled none, a
Cycle with the next draw of the free source (10_state.md R39, R40; assumption log 4, 5). With none scheduled and a fault
latched every Cycle to come returns that fault, and the outcome is the fault (60_exceptions.md R135; assumption log 6). -/
def nextOperation (s : State) : Result :=
  match s.inputs with
  | op :: rest => perform op { s with inputs := rest }
  | [] =>
    match s.fault with
    | some r => .fault (.latched r)
    | none => cycle (Config.freeDraw s.draws) { s with draws := s.draws + 1 }

/-- The address a placed instruction lies at: `pc` where a word can be fetched there, else the program base. -/
def State.placeAt (s : State) : Word := if s.pc.toNat > 0xFFE then 0x200 else s.pc

/-- `s` with a word of `nbits` bits stored where the next Cycle fetches, no operation before that Cycle and no fault latched
(assumption log 8). -/
def State.placeWord (s : State) (nbits w : Nat) : State :=
  { (s.writeBytes s.placeAt.toNat (bytesOfWord (BitVec.ofNat 16 (w % 2 ^ nbits)))).clearFault with
    pc := s.placeAt, inputs := [] }

end Sys2Proof.Machine
end

