-- ==== Sys2Proof/Machine/Step.lean ====
section
/-! DEFINITION. The step of the machine, one operation of CORE's interface (00_scope.md R17), and the placing of a word where
the next Cycle fetches. -/

namespace Sys2Proof.Machine

open Sys2Proof

/-- One step: the operation the host calls next. -/
def step (s : State) : Host.Outcome State Fault Refusal := nextOperation s

/-- `s` with the instruction of a table word where the next step fetches it. -/
def State.withFetchWord (s : State) (nbits w : Nat) : State := s.placeWord nbits w

end Sys2Proof.Machine
end

