-- ==== Sys2Proof/Safety.lean ====
section
/-! DEFINITION. The terms claims are stated in: what an instruction leaves unchanged, which addresses a range check reports,
which pixels a sprite covers, who reads and writes the registers, and the invariant of the machine. -/

namespace Sys2Proof.Machine

open Sys2Proof

/-! A safe run -/

/-- No fault is latched: the premise of a claim of correct completion (60_exceptions.md R135). -/
abbrev State.NoFault (s : State) : Prop := s.fault = none

/-! Frames: what `t` keeps of `s` -/

/-- Nothing but `pc` differs. -/
def OnlyPc (s t : State) : Prop := t = { s with pc := t.pc }

/-- Nothing but `pc` and the registers of the list differs. -/
def OnlyRegs (written : List RegIdx) (s t : State) : Prop :=
  t = { s with pc := t.pc, V := t.V } ∧ ∀ r, r ∉ written → t.reg r = s.reg r

/-- Nothing but `pc` and the `n` bytes of memory from `base` differs; every other byte reads as before. -/
def OnlyBytes (base n : Nat) (s t : State) : Prop :=
  t = { s with pc := t.pc, mem := t.mem } ∧ ∀ a, ¬(base ≤ a ∧ a < base + n) → t.readByte a = s.readByte a

/-- `t` is `s` with one fault record latched, at `s`'s own `pc`, and nothing else changed (60_exceptions.md R134). -/
def TookFault (cause : FaultCause) (info : Nat) (s t : State) : Prop :=
  t = { s with fault := some ⟨cause, s.pc, info⟩ }

/-- A flag-writing instruction completed: `pc` advanced, `V[x]` holds the result and `VF` the flag, and with `x = 15` the one
register holds the one that `FLAG_WRITE_ORDER` writes last (43_alu.md R106). -/
def FlagAndResult (x : RegIdx) (flag : Bool) (res : Byte) (s t : State) : Prop :=
  t.pc = s.pc + 2 ∧ OnlyRegs [x, VF] s t ∧
  (x ≠ VF → t.reg x = res ∧ t.reg VF = b2n flag) ∧
  (x = VF → t.reg VF =
    match flagWriteOrder with
    | .flagThenResult => res
    | .resultThenFlag => b2n flag)

/-! What the host calls next -/

/-- The next operation is a Cycle, with a draw the host chose or with the next draw of the free source. -/
def NextIsCycle (s : State) : Prop := s.inputs = [] ∨ ∃ r rest, s.inputs = .cycle r :: rest

/-- `n` steps, stopping at the first that answers no next state. -/
def steps : Nat → State → Result
  | 0, s => .next s
  | n + 1, s =>
    match step s with
    | .next t => steps n t
    | .fault f => .fault f
    | .refused r => .refused r

/-- The instruction the next Cycle fetches (40_cycle.md R81). -/
def Fetches (s : State) (i : Instr) : Prop := ∃ w, s.fetch = some w ∧ decode w = .ok i

/-! Range checks -/

/-- All `n` addresses from `base` lie in memory. -/
def InRange (base n : Nat) : Prop := ∀ k, k < n → base + k ≤ 0xFFF

/-- `a` is the lowest of the `n` addresses from `base` that lies above 0xFFF (20_memory.md R50). -/
def LowestOutOfRange (base n a : Nat) : Prop :=
  base ≤ a ∧ a < base + n ∧ 0xFFF < a ∧ ∀ b, base ≤ b → b < a → b ≤ 0xFFF

/-! Sprites -/

/-- The sprite of `n` bytes at `base`, drawn at (`vx`, `vy`), has a bit of 1 on the pixel in row `row`, column `col`
(41_display.md R94, R95). -/
def SpriteCovers (s : State) (base n vx vy row col : Nat) : Prop :=
  ∃ r b, r < n ∧ b < 8 ∧ row = (vy + r) % 32 ∧ col = (vx + b) % 64 ∧
    (s.readByte (base + r)).getLsbD (7 - b) = true

/-! Registers read and written (10_state.md R22) -/

/-- The numbers 0 to `x`. -/
def upTo (x : RegIdx) : List RegIdx := (List.range (x.toNat + 1)).map (BitVec.ofNat 4)

/-- The general registers an instruction reads (10_state.md R22, column "reads V"). -/
def regsRead : Instr → List RegIdx
  | .seImm x _ | .sneImm x _ | .addImm x _ => [x]
  | .seReg x y | .sneReg x y => [x, y]
  | .ldReg _ y => [y]
  | .orReg x y | .andReg x y | .xorReg x y | .addReg x y | .subReg x y | .subnReg x y => [x, y]
  | .shr x _ | .shl x _ => [x]
  | .jpV0 _ => [0]
  | .drw x y _ => [x, y]
  | .skp x | .sknp x => [x]
  | .ldDtX x | .ldStX x | .addIX x | .ldFX x | .ldBX x => [x]
  | .ldMemX x => upTo x
  | .cls | .ret | .jp _ | .call _ | .ldImm _ _ | .ldI _ | .rnd _ _ | .ldXDt _ | .ldXK _ | .ldXMem _ => []

/-- The general registers an instruction writes when it completes (10_state.md R22, column "writes V"); Fx0A writes only when
a key is pressed. -/
def regsWritten (i : Instr) (s : State) : List RegIdx :=
  match i with
  | .ldImm x _ | .addImm x _ | .ldReg x _ | .orReg x _ | .andReg x _ | .xorReg x _ | .rnd x _ | .ldXDt x => [x]
  | .addReg x _ | .subReg x _ | .subnReg x _ | .shr x _ | .shl x _ => [x, VF]
  | .drw _ _ _ => [VF]
  | .ldXK x => if s.keys = 0 then [] else [x]
  | .ldXMem x => upTo x
  | .cls | .ret | .jp _ | .call _ | .seImm _ _ | .sneImm _ _ | .seReg _ _ | .sneReg _ _ | .ldI _ | .jpV0 _ | .skp _ | .sknp _
  | .ldDtX _ | .ldStX _ | .addIX _ | .ldFX _ | .ldBX _ | .ldMemX _ => []

/-! The program counter after an instruction (10_state.md R24) -/

/-- How an instruction that completes leaves `pc`, by the table of 10_state.md R24; `a` there is `s.pc`. -/
def PcAfter (i : Instr) (s t : State) : Prop :=
  match i with
  | .seImm x kk => t.pc = if s.reg x = kk then s.pc + 4 else s.pc + 2
  | .sneImm x kk => t.pc = if s.reg x ≠ kk then s.pc + 4 else s.pc + 2
  | .seReg x y => t.pc = if s.reg x = s.reg y then s.pc + 4 else s.pc + 2
  | .sneReg x y => t.pc = if s.reg x ≠ s.reg y then s.pc + 4 else s.pc + 2
  | .skp x => t.pc = if s.keyDown (s.reg x).toNat = true then s.pc + 4 else s.pc + 2
  | .sknp x => t.pc = if s.keyDown (s.reg x).toNat = false then s.pc + 4 else s.pc + 2
  | .jp nnn => t.pc.toNat = nnn.toNat
  | .call nnn => t.pc.toNat = nnn.toNat ∧ t.stack[s.SP.toNat]? = some (s.pc + 2)
  | .ret => s.stack[s.SP.toNat - 1]? = some t.pc
  | .jpV0 nnn => t.pc.toNat = nnn.toNat + (s.reg 0).toNat
  | .ldXK _ => t.pc = if s.keys = 0 then s.pc else s.pc + 2
  | .cls | .ldImm _ _ | .addImm _ _ | .ldReg _ _ | .orReg _ _ | .andReg _ _ | .xorReg _ _ | .addReg _ _ | .subReg _ _
  | .shr _ _ | .subnReg _ _ | .shl _ _ | .ldI _ | .rnd _ _ | .drw _ _ _ | .ldXDt _ | .ldDtX _ | .ldStX _ | .addIX _
  | .ldFX _ | .ldBX _ | .ldMemX _ | .ldXMem _ => t.pc = s.pc + 2

/-! The invariant -/

/-- A fault record that 60_exceptions.md R132 allows: its `info` is one its cause can have. -/
def FaultRecord.Legal (r : FaultRecord) : Prop :=
  match r.cause with
  | .illegalInstruction => ∃ w : Word, r.info = w.toNat ∧ decode w = .error (.illegal w)
  | .stackOverflow => r.info = 16
  | .stackUnderflow => r.info = 0
  | .fetchOutOfRange => r.info = r.pc.toNat ∧ 0xFFE < r.info
  | .dataOutOfRange => 0xFFF < r.info ∧ r.info ≤ 0xFFFF + 15
  | .keyOutOfRange => 15 < r.info ∧ r.info ≤ 255

/-- What every run keeps: memory in its canonical form (assumption log 1); `SP` from 0 to 16 (10_state.md R27); every return
address a fetchable address plus 2, so at most 0x1000 (42_control_flow.md R99); `pc` at most 0x10FE (10_state.md R23); and a
latched record that is legal and names the `pc` the machine stopped at (60_exceptions.md R132, R134). -/
structure State.Inv (s : State) : Prop where
  mem : s.mem.wf
  sp : s.SP.toNat ≤ 16
  stack : ∀ j : Fin 16, (s.stack.get j).toNat ≤ 0x1000
  pc : s.pc.toNat ≤ 0x10FE
  fault : ∀ r, s.fault = some r → r.pc = s.pc ∧ r.Legal

end Sys2Proof.Machine
end

