-- ==== Sys2Proof/Certificates/Slice0/Obligations.lean ====
section
/-! DEFINITION. The statements for the provers, from the numbered rules of spec/. A frame such as `OnlyRegs` is a predicate of
Safety.lean. -/

open Sys2Proof Sys2Proof.Machine

/-! ### Encoding and decoding -/

/-- Decoding the word of any instruction gives that instruction: every operand at every value its field admits. -/
def Obligations.DecodeOfEncodeIsTheInstruction : Prop :=
  ∀ i : Instr, i.WellFormed → decode (encode i) = .ok i ∧
    ∀ rest, decodeBytes (bytesOfWord (encode i) ++ rest) = .ok (i, rest)

/-- Each word has one meaning: encoding what a word decodes to gives the word back. -/
def Obligations.EncodeOfDecodeIsTheWord : Prop :=
  ∀ (w : Word) (i : Instr), decode w = .ok i → encode i = w

/-- Every word maps to exactly one row of the table or to ILLEGAL, and no two rows match the same word: 30_encoding.md R80, "Every
16-bit word maps to exactly one row of rule R72 or to ILLEGAL", which the spec marks as derived. -/
def Obligations.EveryWordMatchesOneRowOrIsIllegal : Prop :=
  (∀ (w : Word) (i : Instr), decode w = .ok i →
    (opcodeTable.filter (fun r => r.matches w)).map Prod.fst = [i.toLine.row]) ∧
  (∀ (w : Word) (e : DecodeError), decode w = .error e →
    e = .illegal w ∧ opcodeTable.filter (fun r => r.matches w) = []) ∧
  (∀ (w : Word), ∀ r ∈ opcodeTable, ∀ q ∈ opcodeTable, r.matches w = true → q.matches w = true → r = q)

/-- The list of illegal words of R73, class by class. -/
def Obligations.IllegalWordsAreThoseListed : Prop :=
  ∀ w : Word, decode w = .error (.illegal w) ↔
    (classOf w = 0x0 ∧ w ≠ 0x00E0 ∧ w ≠ 0x00EE) ∨
    (classOf w = 0x5 ∧ nOf w ≠ 0) ∨
    (classOf w = 0x8 ∧ nOf w ∈ [0x8, 0x9, 0xA, 0xB, 0xC, 0xD, 0xF]) ∨
    (classOf w = 0x9 ∧ nOf w ≠ 0) ∨
    (classOf w = 0xE ∧ kkOf w ∉ [0x9E, 0xA1]) ∨
    (classOf w = 0xF ∧ kkOf w ∉ [0x07, 0x0A, 0x15, 0x18, 0x1E, 0x29, 0x33, 0x55, 0x65])

/-- Assembling (30_encoding.md R77, R79): a line gives a word exactly when it is well formed, the word is that of the instruction
with those operands, and every instruction is named by a line that gives its word. The row of the table stands for the mnemonic
(assumption log 16). -/
def Obligations.AssemblingFillsThePattern : Prop :=
  (∀ l : AsmLine, l.WellFormed → ∃ i, l.assemble = .ok (encode i) ∧ i.toLine = ⟨l.row, l.filled⟩) ∧
  (∀ l : AsmLine, ¬l.WellFormed → ∃ e, l.check = some e ∧ l.assemble = .error e) ∧
  (∀ i : Instr, i.toLine.assemble = .ok (encode i))

/-- A few words written out from the encodings decode to the instructions they stand for. -/
def Obligations.SampleWordsDecode : Prop :=
  decode 0x00E0 = .ok .cls ∧ decode 0x220A = .ok (.call 0x20A) ∧ decode 0x6005 = .ok (.ldImm 0 5) ∧
  decode 0x8126 = .ok (.shr 1 2) ∧ decode 0xD125 = .ok (.drw 1 2 5) ∧ decode 0xFA33 = .ok (.ldBX 0xA) ∧
  decode 0xE1A1 = .ok (.sknp 1) ∧ decode 0x0123 = .error (.illegal 0x0123)

/-! ### The Cycle and the step -/

/-- A step runs the decoded instruction: when the next operation is a Cycle, no fault is latched and the word at `pc` decodes
to `i`, the step is `exec i`, on the state with the Cycle's draw, with the Cycle's result recorded in `out` around it. -/
def Obligations.StepRunsTheDecodedInstruction : Prop :=
  ∀ (s : State) (i : Instr), s.NoFault → i.WellFormed → s.pc.toNat ≤ 0xFFE →
    decodeBytes [s.readByte s.pc.toNat, s.readByte (s.pc.toNat + 1)] = .ok (i, []) →
    (∀ r rest, s.inputs = .cycle r :: rest →
      (∀ t, exec i { s with inputs := rest, rnd := r } = .next t → step s = .next { t with out := some t.cycleResult }) ∧
      (∀ f, exec i { s with inputs := rest, rnd := r } = .fault f → step s = .fault f)) ∧
    (s.inputs = [] →
      (∀ t, exec i { s with draws := s.draws + 1, rnd := Config.freeDraw s.draws } = .next t →
        step s = .next { t with out := some t.cycleResult }) ∧
      (∀ f, exec i { s with draws := s.draws + 1, rnd := Config.freeDraw s.draws } = .fault f → step s = .fault f))

/-- R47, R82: the fetch is two byte reads at `pc` and `pc + 1`, the first the high byte; any `pc` up to 0xFFE, odd or even. -/
def Obligations.FetchIsBigEndian : Prop :=
  ∀ s : State,
    (s.pc.toNat ≤ 0xFFE →
      ∃ w, s.fetch = some w ∧ w.toNat = 256 * (s.readByte s.pc.toNat).toNat + (s.readByte (s.pc.toNat + 1)).toNat) ∧
    (0xFFE < s.pc.toNat → s.fetch = none)

/-- A Cycle with `pc` above 0xFFE takes FETCH_OUT_OF_RANGE(pc) (40_cycle.md R82; what a Cycle returns is in `out`, assumption log
10). -/
def Obligations.FetchAboveMemoryFaults : Prop :=
  ∀ s : State, s.NoFault → NextIsCycle s → 0xFFE < s.pc.toNat →
    ∃ t, step s = .next t ∧
      t.observe = { s.observe with fault := some ⟨.fetchOutOfRange, s.pc, s.pc.toNat⟩ } ∧
      t.out = some (.fault ⟨.fetchOutOfRange, s.pc, s.pc.toNat⟩)

/-- R85: a Cycle whose word is illegal takes ILLEGAL_INSTRUCTION(w). What a Cycle returns is in `out` (assumption log 10). -/
def Obligations.IllegalWordFaults : Prop :=
  ∀ (s : State) (w : Word), s.NoFault → NextIsCycle s → s.fetch = some w → decode w = .error (.illegal w) →
    ∃ t, step s = .next t ∧
      t.observe = { s.observe with fault := some ⟨.illegalInstruction, s.pc, w.toNat⟩ } ∧
      t.out = some (.fault ⟨.illegalInstruction, s.pc, w.toNat⟩)

/-- R134: a Cycle that raises changes nothing of the machine but the fault latch, which holds a record with the `pc` at the
start of the Cycle, and returns that record, in `out` (assumption log 10). Every instruction, every cause. -/
def Obligations.FaultsArePrecise : Prop :=
  ∀ s t : State, s.NoFault → NextIsCycle s → step s = .next t →
    ∀ r, t.fault = some r → r.pc = s.pc ∧ t.observe = { s.observe with fault := some r } ∧ t.out = some (.fault r)

/-- R132, R138: which causes an instruction can raise while it executes; every other instruction raises none. -/
def Obligations.EachCauseHasItsInstructions : Prop :=
  ∀ (i : Instr) (s t : State), s.NoFault → exec i s = .next t → ∀ r, t.fault = some r →
    (r.cause = .stackUnderflow ∧ i = .ret ∧ r.info = s.SP.toNat) ∨
    (r.cause = .stackOverflow ∧ (∃ nnn, i = .call nnn) ∧ r.info = s.SP.toNat) ∨
    (r.cause = .dataOutOfRange ∧ 0xFFF < r.info ∧
      ((∃ x y n, i = .drw x y n) ∨ (∃ x, i = .ldBX x) ∨ (∃ x, i = .ldMemX x) ∨ (∃ x, i = .ldXMem x))) ∨
    (r.cause = .keyOutOfRange ∧ ∃ x, (i = .skp x ∨ i = .sknp x) ∧ r.info = (s.reg x).toNat ∧ 15 < r.info)

/-- While the latch holds a record a Cycle reads and changes nothing of the machine and returns that FAULT again, in `out`
(60_exceptions.md R135), and the operations scheduled after it are still to come; with none scheduled the outcome of the step is
the fault (the model's form of it, assumption log 6). -/
def Obligations.LatchedCycleIsTheSameFault : Prop :=
  ∀ (s : State) (r : FaultRecord), s.fault = some r →
    (∀ (q : Byte) (rest : List HostOp), s.inputs = .cycle q :: rest →
      step s = .next { s with inputs := rest, out := some (.fault r) }) ∧
    (s.inputs = [] → step s = .fault (.latched r))

/-- R136: PowerOn and a Load that returns LOAD_OK clear the fault latch and nothing else does; PowerOn resets every field, the
Load leaves all but memory and `pc` as the faulted machine left it, and neither restores anything from the record. -/
def Obligations.OnlyPowerOnAndLoadClearTheLatch : Prop :=
  (∀ (s t : State) (r : FaultRecord), s.fault = some r → step s = .next t → t.fault ≠ some r →
    (∃ rest, s.inputs = .powerOn :: rest ∧ t.observe = State.reset.observe) ∨
    (∃ src rest, s.inputs = .load src :: rest ∧ t.out = some (.load .loadOk) ∧
      t.observe = { s.observe with mem := t.mem, pc := 0x200, fault := none })) ∧
  (∀ (s t : State) (rest : List HostOp), s.inputs = .powerOn :: rest → step s = .next t → t.fault = none) ∧
  (∀ (s t : State) (src : ImageSource) (rest : List HostOp), s.inputs = .load src :: rest → step s = .next t →
    t.out = some (.load .loadOk) → t.fault = none)

/-- A step stops only with a fault latched and nothing scheduled: from every other state that meets the invariant it answers a
next state, so a Cycle always returns (40_cycle.md R83). -/
def Obligations.StepAlwaysReturns : Prop :=
  ∀ s : State, s.Inv → (s.NoFault ∨ s.inputs ≠ []) → ∃ t, step s = .next t

/-! ### The host's operations -/

/-- R146, R147: Tick decrements each timer by 1, floored at 0, and changes nothing else, with a fault latched or not. -/
def Obligations.TickDecrementsTheTimers : Prop :=
  ∀ (s : State) (rest : List HostOp), s.inputs = .tick :: rest →
    ∃ t, step s = .next t ∧ t.observe = { s.observe with DT := t.DT, ST := t.ST } ∧
      t.DT.toNat = s.DT.toNat - 1 ∧ t.ST.toNat = s.ST.toNat - 1 ∧ t.inputs = rest

/-- R150: SetKeys sets the latch to the bits given and changes nothing else. -/
def Obligations.SetKeysSetsTheLatch : Prop :=
  ∀ (s : State) (k : Word) (rest : List HostOp), s.inputs = .setKeys k :: rest →
    ∃ t, step s = .next t ∧ (∀ j, j < 16 → t.keyDown j = k.getLsbD j) ∧
      t.observe = { s.observe with keys := t.keys } ∧ t.inputs = rest

/-- R155, R156, R157: a Load of an image of at most 3583 bytes stores its bytes from 0x200 on, sets `pc` to 0x200, clears the
fault latch and changes nothing else, every other byte reading as before; a longer image and a failed read change no state of
the machine. -/
def Obligations.LoadCopiesTheImageOrChangesNothing : Prop :=
  (∀ (s : State) (image : List Byte) (rest : List HostOp), s.mem.wf → s.inputs = .load (.bytes image) :: rest →
    image.length ≤ 3583 →
    ∃ t, step s = .next t ∧ t.out = some (.load .loadOk) ∧ t.pc = 0x200 ∧ t.fault = none ∧
      (∀ (k : Nat) (h : k < image.length), t.readByte (0x200 + k) = image[k]) ∧
      (∀ a, ¬(0x200 ≤ a ∧ a < 0x200 + image.length) → t.readByte a = s.readByte a) ∧
      t.observe = { s.observe with mem := t.mem, pc := t.pc, fault := t.fault }) ∧
  (∀ (s : State) (image : List Byte) (rest : List HostOp), s.inputs = .load (.bytes image) :: rest →
    3583 < image.length →
    ∃ t, step s = .next t ∧ t.out = some (.load (.romTooLarge image.length)) ∧ t.observe = s.observe) ∧
  (∀ (s : State) (kind : Nat) (rest : List HostOp), s.inputs = .load (.readFailed kind) :: rest →
    ∃ t, step s = .next t ∧ t.out = some (.load (.ioError kind)) ∧ t.observe = s.observe)

/-- PowerOn sets every field of the machine to its reset value, whatever the state before (70_reset_and_hazards.md R153; that
the host may call it again is the model's choice, assumption log 9). -/
def Obligations.PowerOnResets : Prop :=
  ∀ (s : State) (rest : List HostOp), s.inputs = .powerOn :: rest →
    ∃ t, step s = .next t ∧ t.observe = State.reset.observe ∧ t.inputs = rest

/-- R44: the reset value of every field. `font` is the parameter FONT, named and not spelled out. -/
def Obligations.ResetValues : Prop :=
  font.length = 80 ∧
  (∀ (a : Nat) (h : a < font.length), State.reset.readByte a = font[a]) ∧
  (∀ a, 0x050 ≤ a → a ≤ 0xFFF → State.reset.readByte a = 0) ∧
  (∀ r, State.reset.reg r = 0) ∧ State.reset.I = 0 ∧ State.reset.pc = 0 ∧ State.reset.SP = 0 ∧
  State.reset.DT = 0 ∧ State.reset.ST = 0 ∧ (∀ j : Fin 16, State.reset.stack.get j = 0) ∧
  (∀ r c, State.reset.disp.pixel r c = false) ∧ (∀ k, State.reset.keyDown k = false) ∧ State.reset.fault = none

/-- R41: Observe returns every field of the machine's state, in `out` (assumption log 10), and changes none. -/
def Obligations.ObserveReadsWithoutEffect : Prop :=
  ∀ (s : State) (rest : List HostOp), s.inputs = .observe :: rest →
    ∃ t, step s = .next t ∧ t.out = some (.observed s.observe) ∧ t.observe = s.observe ∧ t.inputs = rest

/-! ### Display -/

/-- R93: 00E0 turns every pixel off and changes nothing else but `pc`. -/
def Obligations.ClsClearsTheDisplay : Prop :=
  decode 0x00E0 = .ok .cls ∧
  ∀ s : State, ∃ t, exec .cls s = .next t ∧ t.pc = s.pc + 2 ∧ (∀ r c, t.disp.pixel r c = false) ∧
    t = { s with pc := t.pc, disp := t.disp }

/-- R94, R95, R96: Dxyn toggles exactly the pixels its sprite covers, with wrap, sets `VF` to whether a covered pixel was on,
and changes nothing else but `pc`; an address out of range faults before any write. -/
def Obligations.DrwXorsTheSprite : Prop :=
  ∀ (x y : RegIdx) (n : Nibble),
    decode (0xD000 ||| atX x ||| atY y ||| n.setWidth 16) = .ok (.drw x y n) ∧
    (∀ s : State, InRange (s.ea 0) n.toNat →
      ∃ t, exec (.drw x y n) s = .next t ∧ t.pc = s.pc + 2 ∧
        (∀ (r : Fin 32) (c : Fin 64), t.disp.pixel r c = true ↔
          ¬(s.disp.pixel r c = true ↔
            SpriteCovers s (s.ea 0) n.toNat (s.reg x).toNat (s.reg y).toNat r.val c.val)) ∧
        ((∃ (r : Fin 32) (c : Fin 64), s.disp.pixel r c = true ∧
          SpriteCovers s (s.ea 0) n.toNat (s.reg x).toNat (s.reg y).toNat r.val c.val) → t.reg VF = 1) ∧
        ((∀ (r : Fin 32) (c : Fin 64), s.disp.pixel r c = true →
          ¬SpriteCovers s (s.ea 0) n.toNat (s.reg x).toNat (s.reg y).toNat r.val c.val) → t.reg VF = 0) ∧
        t = { s with pc := t.pc, V := t.V, disp := t.disp } ∧ ∀ r, r ≠ VF → t.reg r = s.reg r) ∧
    (∀ (s : State) (a : Nat), LowestOutOfRange (s.ea 0) n.toNat a →
      ∃ t, exec (.drw x y n) s = .next t ∧ TookFault .dataOutOfRange a s t)

/-- A sprite drawn twice at one place restores the display. -/
def Obligations.DrawingTwiceRestoresTheDisplay : Prop :=
  ∀ (x y : RegIdx) (n : Nibble) (s : State), x ≠ VF → y ≠ VF → InRange (s.ea 0) n.toNat →
    ∃ t u, exec (.drw x y n) s = .next t ∧ exec (.drw x y n) t = .next u ∧ u.disp = s.disp

/-! ### Control transfer -/

/-- R97: 00EE pops the return address into `pc`, the slot keeping its value; an empty stack takes STACK_UNDERFLOW. -/
def Obligations.RetPopsTheReturnAddress : Prop :=
  decode 0x00EE = .ok .ret ∧
  (∀ s : State, s.SP ≠ 0 → s.SP.toNat ≤ 16 →
    ∃ t, exec .ret s = .next t ∧ t.SP.toNat = s.SP.toNat - 1 ∧ s.stack[s.SP.toNat - 1]? = some t.pc ∧
      t = { s with pc := t.pc, SP := t.SP }) ∧
  (∀ s : State, s.SP = 0 → ∃ t, exec .ret s = .next t ∧ TookFault .stackUnderflow 0 s t)

/-- The model's own stop: 00EE with `SP` above 16 reads a slot that does not exist (assumption log 7). -/
def Obligations.RetBeyondTheStackStops : Prop :=
  ∀ s : State, 16 < s.SP.toNat → exec .ret s = .fault (.noStackSlot s.SP)

/-- R98: 1nnn sets `pc` to `nnn`. -/
def Obligations.JpSetsThePc : Prop :=
  ∀ nnn : Addr,
    decode (0x1000 ||| nnn.setWidth 16) = .ok (.jp nnn) ∧
    ∀ s : State, ∃ t, exec (.jp nnn) s = .next t ∧ t.pc.toNat = nnn.toNat ∧ OnlyPc s t

/-- R99: 2nnn pushes the address after it and sets `pc` to `nnn`; a full stack takes STACK_OVERFLOW. -/
def Obligations.CallPushesTheReturnAddress : Prop :=
  ∀ nnn : Addr,
    decode (0x2000 ||| nnn.setWidth 16) = .ok (.call nnn) ∧
    (∀ s : State, s.SP.toNat < 16 →
      ∃ t, exec (.call nnn) s = .next t ∧ t.pc.toNat = nnn.toNat ∧ t.SP.toNat = s.SP.toNat + 1 ∧
        (∀ j : Fin 16, t.stack.get j = if j.val = s.SP.toNat then s.pc + 2 else s.stack.get j) ∧
        t = { s with pc := t.pc, SP := t.SP, stack := t.stack }) ∧
    (∀ s : State, 16 ≤ s.SP.toNat →
      ∃ t, exec (.call nnn) s = .next t ∧ TookFault .stackOverflow s.SP.toNat s t)

/-- A subroutine that leaves the stack as it found it returns to the instruction after its call, with the caller's depth. -/
def Obligations.ReturnGoesBackAfterTheCall : Prop :=
  ∀ (nnn : Addr) (s : State), s.SP.toNat < 16 →
    ∃ t, exec (.call nnn) s = .next t ∧
      ∀ t' : State, t'.SP = t.SP → t'.stack = t.stack →
        ∃ u, exec .ret t' = .next u ∧ u.pc = s.pc + 2 ∧ u.SP = s.SP

/-- R100, R101: 3xkk skips when `Vx` equals `kk`, 4xkk when it differs. -/
def Obligations.SkipsOnAnImmediate : Prop :=
  ∀ (x : RegIdx) (kk : Byte),
    decode (0x3000 ||| atX x ||| kk.setWidth 16) = .ok (.seImm x kk) ∧
    decode (0x4000 ||| atX x ||| kk.setWidth 16) = .ok (.sneImm x kk) ∧
    ∀ s : State,
      (∃ t, exec (.seImm x kk) s = .next t ∧ OnlyPc s t ∧
        t.pc = if s.reg x = kk then s.pc + 4 else s.pc + 2) ∧
      (∃ t, exec (.sneImm x kk) s = .next t ∧ OnlyPc s t ∧
        t.pc = if s.reg x = kk then s.pc + 2 else s.pc + 4)

/-- R102, R103: 5xy0 skips when `Vx` equals `Vy`, 9xy0 when it differs. -/
def Obligations.SkipsOnTwoRegisters : Prop :=
  ∀ (x y : RegIdx),
    decode (0x5000 ||| atX x ||| atY y) = .ok (.seReg x y) ∧
    decode (0x9000 ||| atX x ||| atY y) = .ok (.sneReg x y) ∧
    ∀ s : State,
      (∃ t, exec (.seReg x y) s = .next t ∧ OnlyPc s t ∧
        t.pc = if s.reg x = s.reg y then s.pc + 4 else s.pc + 2) ∧
      (∃ t, exec (.sneReg x y) s = .next t ∧ OnlyPc s t ∧
        t.pc = if s.reg x = s.reg y then s.pc + 2 else s.pc + 4)

/-- R104: Bnnn sets `pc` to `nnn + V0`, not reduced to 12 bits. -/
def Obligations.JpV0AddsV0 : Prop :=
  ∀ nnn : Addr,
    decode (0xB000 ||| nnn.setWidth 16) = .ok (.jpV0 nnn) ∧
    ∀ s : State, ∃ t, exec (.jpV0 nnn) s = .next t ∧ t.pc.toNat = nnn.toNat + (s.reg 0).toNat ∧ OnlyPc s t

/-! ### Register arithmetic -/

/-- R105: 6xkk loads the immediate. -/
def Obligations.LdImmLoadsTheByte : Prop :=
  ∀ (x : RegIdx) (kk : Byte),
    decode (0x6000 ||| atX x ||| kk.setWidth 16) = .ok (.ldImm x kk) ∧
    ∀ s : State, ∃ t, exec (.ldImm x kk) s = .next t ∧ t.pc = s.pc + 2 ∧ t.reg x = kk ∧ OnlyRegs [x] s t

/-- R107: 7xkk adds modulo 256, without a flag. -/
def Obligations.AddImmWraps : Prop :=
  ∀ (x : RegIdx) (kk : Byte),
    decode (0x7000 ||| atX x ||| kk.setWidth 16) = .ok (.addImm x kk) ∧
    ∀ s : State, ∃ t, exec (.addImm x kk) s = .next t ∧ t.pc = s.pc + 2 ∧
      (t.reg x).toNat = ((s.reg x).toNat + kk.toNat) % 256 ∧ OnlyRegs [x] s t

/-- R108: 8xy0 copies `Vy` to `Vx`. -/
def Obligations.LdRegCopies : Prop :=
  ∀ (x y : RegIdx),
    decode (0x8000 ||| atX x ||| atY y) = .ok (.ldReg x y) ∧
    ∀ s : State, ∃ t, exec (.ldReg x y) s = .next t ∧ t.pc = s.pc + 2 ∧ t.reg x = s.reg y ∧ OnlyRegs [x] s t

/-- R109, R110, R111: 8xy1, 8xy2, 8xy3 are OR, AND, XOR bit by bit and write no flag. -/
def Obligations.LogicIsBitwise : Prop :=
  ∀ (x y : RegIdx),
    decode (0x8001 ||| atX x ||| atY y) = .ok (.orReg x y) ∧
    decode (0x8002 ||| atX x ||| atY y) = .ok (.andReg x y) ∧
    decode (0x8003 ||| atX x ||| atY y) = .ok (.xorReg x y) ∧
    ∀ s : State,
      (∃ t, exec (.orReg x y) s = .next t ∧ t.pc = s.pc + 2 ∧ OnlyRegs [x] s t ∧
        ∀ b, (t.reg x).getLsbD b = ((s.reg x).getLsbD b || (s.reg y).getLsbD b)) ∧
      (∃ t, exec (.andReg x y) s = .next t ∧ t.pc = s.pc + 2 ∧ OnlyRegs [x] s t ∧
        ∀ b, (t.reg x).getLsbD b = ((s.reg x).getLsbD b && (s.reg y).getLsbD b)) ∧
      (∃ t, exec (.xorReg x y) s = .next t ∧ t.pc = s.pc + 2 ∧ OnlyRegs [x] s t ∧
        ∀ b, (t.reg x).getLsbD b = ((s.reg x).getLsbD b ^^ (s.reg y).getLsbD b))

/-- R106: the two orders of the flag and result writes, for every destination, and the order of this hardware (assumption
log 3). -/
def Obligations.FlagWriteOrderMattersForVfOnly : Prop :=
  flagWriteOrder = .flagThenResult ∧
  ∀ (x : RegIdx) (flag : Bool) (res : Byte) (s : State),
    (x ≠ VF → writeFlagResult .flagThenResult x flag res s = writeFlagResult .resultThenFlag x flag res s) ∧
    (x ≠ VF → (writeFlagResult .flagThenResult x flag res s).reg x = res ∧
      (writeFlagResult .flagThenResult x flag res s).reg VF = b2n flag) ∧
    (x = VF → (writeFlagResult .flagThenResult x flag res s).reg VF = res ∧
      (writeFlagResult .resultThenFlag x flag res s).reg VF = b2n flag)

/-- R112: 8xy4 adds modulo 256, with the carry as flag. -/
def Obligations.AddRegCarries : Prop :=
  ∀ (x y : RegIdx),
    decode (0x8004 ||| atX x ||| atY y) = .ok (.addReg x y) ∧
    ∀ s : State, ∃ t, exec (.addReg x y) s = .next t ∧
      FlagAndResult x (decide (255 < (s.reg x).toNat + (s.reg y).toNat)) (s.reg x + s.reg y) s t

/-- R113, R115: 8xy5 is `Vx - Vy` and 8xy7 is `Vy - Vx`, modulo 256, with no-borrow as flag. -/
def Obligations.SubtractionsFlagNoBorrow : Prop :=
  ∀ (x y : RegIdx),
    decode (0x8005 ||| atX x ||| atY y) = .ok (.subReg x y) ∧
    decode (0x8007 ||| atX x ||| atY y) = .ok (.subnReg x y) ∧
    ∀ s : State,
      (∃ t, exec (.subReg x y) s = .next t ∧
        FlagAndResult x (decide ((s.reg y).toNat ≤ (s.reg x).toNat))
          (BitVec.ofNat 8 (256 + (s.reg x).toNat - (s.reg y).toNat)) s t) ∧
      (∃ t, exec (.subnReg x y) s = .next t ∧
        FlagAndResult x (decide ((s.reg x).toNat ≤ (s.reg y).toNat))
          (BitVec.ofNat 8 (256 + (s.reg y).toNat - (s.reg x).toNat)) s t)

/-- R114, R116: 8xy6 halves `Vx`, with the old bit 0 as flag, and 8xyE doubles it modulo 256, with the old bit 7 as flag;
neither reads `Vy`. -/
def Obligations.ShiftsFlagTheBitOut : Prop :=
  ∀ (x y : RegIdx),
    decode (0x8006 ||| atX x ||| atY y) = .ok (.shr x y) ∧
    decode (0x800E ||| atX x ||| atY y) = .ok (.shl x y) ∧
    ∀ s : State,
      (∃ t, exec (.shr x y) s = .next t ∧
        FlagAndResult x (decide ((s.reg x).toNat % 2 = 1)) (BitVec.ofNat 8 ((s.reg x).toNat / 2)) s t) ∧
      (∃ t, exec (.shl x y) s = .next t ∧
        FlagAndResult x (decide (128 ≤ (s.reg x).toNat)) (BitVec.ofNat 8 (2 * (s.reg x).toNat)) s t)

/-- R118: Cxkk gives the Cycle's draw AND `kk`, whatever the draw. -/
def Obligations.RndAndsTheDraw : Prop :=
  ∀ (x : RegIdx) (kk : Byte),
    decode (0xC000 ||| atX x ||| kk.setWidth 16) = .ok (.rnd x kk) ∧
    ∀ (s : State) (r : Byte), ∃ t, exec (.rnd x kk) { s with rnd := r } = .next t ∧ t.pc = s.pc + 2 ∧
      (∀ b, (t.reg x).getLsbD b = (r.getLsbD b && kk.getLsbD b)) ∧ OnlyRegs [x] { s with rnd := r } t

/-! ### Address register and memory transfer -/

/-- R119: Annn loads `nnn` into `I`. -/
def Obligations.LdILoadsTheAddress : Prop :=
  ∀ nnn : Addr,
    decode (0xA000 ||| nnn.setWidth 16) = .ok (.ldI nnn) ∧
    ∀ s : State, ∃ t, exec (.ldI nnn) s = .next t ∧ t.pc = s.pc + 2 ∧ t.I.toNat = nnn.toNat ∧
      t = { s with pc := t.pc, I := t.I }

/-- R120, R121: Fx1E adds `Vx` to `I` modulo 65536 and Fx29 sets it to `Vx * 5`; `VF` is unchanged. -/
def Obligations.AddressArithmetic : Prop :=
  ∀ x : RegIdx,
    decode (0xF01E ||| atX x) = .ok (.addIX x) ∧ decode (0xF029 ||| atX x) = .ok (.ldFX x) ∧
    ∀ s : State,
      (∃ t, exec (.addIX x) s = .next t ∧ t.pc = s.pc + 2 ∧
        t.I.toNat = (s.I.toNat + (s.reg x).toNat) % 65536 ∧ t = { s with pc := t.pc, I := t.I }) ∧
      (∃ t, exec (.ldFX x) s = .next t ∧ t.pc = s.pc + 2 ∧
        t.I.toNat = (s.reg x).toNat * 5 ∧ t = { s with pc := t.pc, I := t.I })

/-- R122: Fx33 stores the three decimal digits at `I`, `I + 1`, `I + 2` and changes no other byte; an address out of range
faults before any write. -/
def Obligations.BcdStoresTheDigits : Prop :=
  ∀ x : RegIdx,
    decode (0xF033 ||| atX x) = .ok (.ldBX x) ∧
    (∀ s : State, s.mem.wf → InRange (s.ea 0) 3 →
      ∃ t, exec (.ldBX x) s = .next t ∧ t.pc = s.pc + 2 ∧
        (t.readByte (s.ea 0)).toNat = (s.reg x).toNat / 100 ∧
        (t.readByte (s.ea 1)).toNat = (s.reg x).toNat / 10 % 10 ∧
        (t.readByte (s.ea 2)).toNat = (s.reg x).toNat % 10 ∧ OnlyBytes (s.ea 0) 3 s t) ∧
    (∀ (s : State) (a : Nat), LowestOutOfRange (s.ea 0) 3 a →
      ∃ t, exec (.ldBX x) s = .next t ∧ TookFault .dataOutOfRange a s t)

/-- R123: Fx55 stores `V0` to `Vx` from `I` on and changes no other byte, nor `I`; an address out of range faults before any
write. -/
def Obligations.StoreWritesTheRegisters : Prop :=
  ∀ x : RegIdx,
    decode (0xF055 ||| atX x) = .ok (.ldMemX x) ∧
    (∀ s : State, s.mem.wf → InRange (s.ea 0) (x.toNat + 1) →
      ∃ t, exec (.ldMemX x) s = .next t ∧ t.pc = s.pc + 2 ∧
        (∀ r : RegIdx, r.toNat ≤ x.toNat → t.readByte (s.ea r.toNat) = s.reg r) ∧
        OnlyBytes (s.ea 0) (x.toNat + 1) s t) ∧
    (∀ (s : State) (a : Nat), LowestOutOfRange (s.ea 0) (x.toNat + 1) a →
      ∃ t, exec (.ldMemX x) s = .next t ∧ TookFault .dataOutOfRange a s t)

/-- R124: Fx65 loads `V0` to `Vx` from `I` on; `I` and memory are unchanged; an address out of range faults before any
write. -/
def Obligations.LoadReadsTheRegisters : Prop :=
  ∀ x : RegIdx,
    decode (0xF065 ||| atX x) = .ok (.ldXMem x) ∧
    (∀ s : State, InRange (s.ea 0) (x.toNat + 1) →
      ∃ t, exec (.ldXMem x) s = .next t ∧ t.pc = s.pc + 2 ∧
        (∀ r : RegIdx, r.toNat ≤ x.toNat → t.reg r = s.readByte (s.ea r.toNat)) ∧
        OnlyRegs (upTo x) s t) ∧
    (∀ (s : State) (a : Nat), LowestOutOfRange (s.ea 0) (x.toNat + 1) a →
      ∃ t, exec (.ldXMem x) s = .next t ∧ TookFault .dataOutOfRange a s t)

/-- A word that Fx55 or Fx33 stores over the next instruction's bytes, at any place of the stored run, is the word the next
Cycle fetches: 20_memory.md R59, "If they write the bytes of the next instruction, the next Cycle executes the new bytes", which
the spec marks as derived. `k` is where in the run the next instruction lies. -/
def Obligations.StoredWordIsFetchedNext : Prop :=
  ∀ (s : State) (x : RegIdx) (k : Nat), s.mem.wf → s.ea k = s.pc.toNat + 2 →
    (k < x.toNat → InRange (s.ea 0) (x.toNat + 1) →
      ∃ t, exec (.ldMemX x) s = .next t ∧
        t.fetch = some (wordOfBytes (s.reg (BitVec.ofNat 4 k)) (s.reg (BitVec.ofNat 4 (k + 1))))) ∧
    (k < 2 → InRange (s.ea 0) 3 →
      ∃ t, exec (.ldBX x) s = .next t ∧
        t.fetch = some (if k = 0 then
            wordOfBytes (BitVec.ofNat 8 ((s.reg x).toNat / 100)) (BitVec.ofNat 8 ((s.reg x).toNat / 10 % 10))
          else wordOfBytes (BitVec.ofNat 8 ((s.reg x).toNat / 10 % 10)) (BitVec.ofNat 8 ((s.reg x).toNat % 10))))

/-! ### Keys and timers -/

/-- R125, R126: Ex9E skips when the key numbered `Vx` is pressed, ExA1 when it is not; a number above 15 takes
KEY_OUT_OF_RANGE. -/
def Obligations.SkipsOnAKey : Prop :=
  ∀ x : RegIdx,
    decode (0xE09E ||| atX x) = .ok (.skp x) ∧ decode (0xE0A1 ||| atX x) = .ok (.sknp x) ∧
    (∀ s : State, (s.reg x).toNat ≤ 15 →
      (∃ t, exec (.skp x) s = .next t ∧ OnlyPc s t ∧
        t.pc = if s.keys.getLsbD (s.reg x).toNat = true then s.pc + 4 else s.pc + 2) ∧
      (∃ t, exec (.sknp x) s = .next t ∧ OnlyPc s t ∧
        t.pc = if s.keys.getLsbD (s.reg x).toNat = true then s.pc + 2 else s.pc + 4)) ∧
    (∀ s : State, 15 < (s.reg x).toNat →
      (∃ t, exec (.skp x) s = .next t ∧ TookFault .keyOutOfRange (s.reg x).toNat s t) ∧
      (∃ t, exec (.sknp x) s = .next t ∧ TookFault .keyOutOfRange (s.reg x).toNat s t))

/-- R127, R129, R130: Fx07 reads DT, Fx15 writes DT, Fx18 writes ST. -/
def Obligations.TimerTransfers : Prop :=
  ∀ x : RegIdx,
    decode (0xF007 ||| atX x) = .ok (.ldXDt x) ∧ decode (0xF015 ||| atX x) = .ok (.ldDtX x) ∧
    decode (0xF018 ||| atX x) = .ok (.ldStX x) ∧
    ∀ s : State,
      (∃ t, exec (.ldXDt x) s = .next t ∧ t.pc = s.pc + 2 ∧ t.reg x = s.DT ∧ OnlyRegs [x] s t) ∧
      (∃ t, exec (.ldDtX x) s = .next t ∧ t.pc = s.pc + 2 ∧ t.DT = s.reg x ∧ t = { s with pc := t.pc, DT := t.DT }) ∧
      (∃ t, exec (.ldStX x) s = .next t ∧ t.pc = s.pc + 2 ∧ t.ST = s.reg x ∧ t = { s with pc := t.pc, ST := t.ST })

/-- R128: Fx0A with no key pressed changes nothing at all; with a key pressed, `Vx` is the least one's number. -/
def Obligations.KeyWaitPolls : Prop :=
  ∀ x : RegIdx,
    decode (0xF00A ||| atX x) = .ok (.ldXK x) ∧
    (∀ s : State, (∀ k, k < 16 → s.keys.getLsbD k = false) → exec (.ldXK x) s = .next s) ∧
    (∀ (s : State) (p : Nat), p < 16 → s.keys.getLsbD p = true → (∀ k, k < p → s.keys.getLsbD k = false) →
      ∃ t, exec (.ldXK x) s = .next t ∧ t.pc = s.pc + 2 ∧ (t.reg x).toNat = p ∧ OnlyRegs [x] s t)

/-! ### The whole machine -/

/-- No instruction writes a register its row does not list, and what it writes depends on no register its row does not list as
read: the table of 10_state.md R22, "Register access by instruction", which the spec marks as derived. -/
def Obligations.RegistersReadAndWritten : Prop :=
  (∀ (i : Instr) (s t : State), exec i s = .next t → ∀ r, r ∉ regsWritten i s → t.reg r = s.reg r) ∧
  (∀ (i : Instr) (s s' t : State), s.NoFault → s' = { s with V := s'.V } →
    (∀ r, r ∈ regsRead i → s'.reg r = s.reg r) → exec i s = .next t →
    ∃ t', exec i s' = .next t' ∧ t' = { t with V := t'.V } ∧
      (t.NoFault → ∀ r, r ∈ regsWritten i s → t'.reg r = t.reg r))

/-- How each instruction leaves `pc`; a faulting one leaves it: the table of 10_state.md R24, "How each instruction leaves `pc`",
which the spec marks as derived. -/
def Obligations.PcAfterEachInstruction : Prop :=
  ∀ (i : Instr) (s t : State), s.NoFault → s.SP.toNat ≤ 16 → exec i s = .next t →
    (t.NoFault → PcAfter i s t) ∧ (¬t.NoFault → t.pc = s.pc)

/-- Who writes each piece of state (10_state.md R26 to R29, R32 to R34; 40_cycle.md R92): no instruction writes the key latch;
memory, the display, the timers, the stack and its pointer, and `I` are written only by the instructions the rules name. -/
def Obligations.OnlyTheNamedInstructionsWrite : Prop :=
  ∀ (i : Instr) (s t : State), exec i s = .next t →
    t.keys = s.keys ∧
    (t.mem = s.mem ∨ ∃ x, i = .ldBX x ∨ i = .ldMemX x) ∧
    (t.disp = s.disp ∨ i = .cls ∨ ∃ x y n, i = .drw x y n) ∧
    (t.DT = s.DT ∨ ∃ x, i = .ldDtX x) ∧ (t.ST = s.ST ∨ ∃ x, i = .ldStX x) ∧
    (t.SP = s.SP ∨ i = .ret ∨ ∃ nnn, i = .call nnn) ∧ (t.stack = s.stack ∨ ∃ nnn, i = .call nnn) ∧
    (t.I = s.I ∨ (∃ nnn, i = .ldI nnn) ∨ ∃ x, i = .addIX x ∨ i = .ldFX x) ∧
    t.rnd = s.rnd ∧ t.draws = s.draws ∧ t.inputs = s.inputs ∧ t.out = s.out

/-- Only Cxkk reads the Cycle's draw (R40, R86): every other instruction does the same whatever the draw is. -/
def Obligations.OnlyRndReadsTheDraw : Prop :=
  ∀ (i : Instr) (s t : State) (r : Byte), (∀ x kk, i ≠ .rnd x kk) → exec i s = .next t →
    exec i { s with rnd := r } = .next { t with rnd := r }

/-- A Tick and an instruction that touches no timer can come in either order (R92, R148). -/
def Obligations.TickCommutesWithOtherInstructions : Prop :=
  ∀ (i : Instr) (s t : State), (∀ x, i ≠ .ldXDt x ∧ i ≠ .ldDtX x ∧ i ≠ .ldStX x) → exec i s = .next t →
    exec i (tick s) = .next (tick t)

/-- 70_reset_and_hazards.md R165: over any step but a PowerOn, DT never increases except through Fx15, and it decreases by at most one, on a Tick. -/
def Obligations.DtMovesOnlyByFx15AndTick : Prop :=
  ∀ s t : State, step s = .next t → (∀ rest, s.inputs ≠ .powerOn :: rest) →
    (NextIsCycle s → ∀ x, ¬Fetches s (.ldDtX x)) →
    t.DT.toNat ≤ s.DT.toNat ∧ s.DT.toNat ≤ t.DT.toNat + 1 ∧ ((∀ rest, s.inputs ≠ .tick :: rest) → t.DT = s.DT)

/-- Memory in its canonical form is determined by what it reads as (assumption log 1). -/
def Obligations.MemoriesThatReadTheSameAreEqual : Prop :=
  ∀ m m' : Memory, m.wf → m'.wf → (∀ a, m.read a = m'.read a) → m = m'

/-- Every step keeps the invariant: memory canonical (assumption log 1), SP from 0 to 16, return addresses at most 0x1000, `pc` at most 0x10FE,
and a latched record legal and at the `pc` the machine stopped at. -/
def Obligations.StepKeepsTheInvariant : Prop :=
  ∀ s t : State, s.Inv → step s = .next t → t.Inv

/-- The invariant holds at reset. -/
def Obligations.ResetMeetsTheInvariant : Prop := State.reset.Inv

/-- Any order and number of operations (10_state.md R39; the queue is the model's form, assumption log 5): from a state that
meets the invariant, with a fault latched or not, as many steps as there are operations scheduled perform them all, whichever
they are, and leave a state that meets the invariant. -/
def Obligations.AnyScheduleIsPerformed : Prop :=
  ∀ (s : State) (ops : List HostOp), s.Inv →
    ∃ t, steps ops.length { s with inputs := ops } = .next t ∧ t.inputs = [] ∧ t.Inv
end

