-- ==== Sys2Proof/Laws/Decode.lean ====
section
/-! SUPPORT. The fields of a word built by OR from a pattern and shifted operands: what every encoding and decoding proof
rests on. -/

namespace Sys2Proof

/-! The fields of a bitwise OR are the ORs of the fields -/

@[simp] theorem classOf_or (a b : Word) : classOf (a ||| b) = classOf a ||| classOf b := by
  simp [classOf, BitVec.extractLsb'_or]

@[simp] theorem xOf_or (a b : Word) : xOf (a ||| b) = xOf a ||| xOf b := by simp [xOf, BitVec.extractLsb'_or]

@[simp] theorem yOf_or (a b : Word) : yOf (a ||| b) = yOf a ||| yOf b := by simp [yOf, BitVec.extractLsb'_or]

@[simp] theorem nOf_or (a b : Word) : nOf (a ||| b) = nOf a ||| nOf b := by simp [nOf, BitVec.extractLsb'_or]

@[simp] theorem kkOf_or (a b : Word) : kkOf (a ||| b) = kkOf a ||| kkOf b := by simp [kkOf, BitVec.extractLsb'_or]

@[simp] theorem nnnOf_or (a b : Word) : nnnOf (a ||| b) = nnnOf a ||| nnnOf b := by simp [nnnOf, BitVec.extractLsb'_or]

/-! The fields of a literal word -/

@[simp] theorem classOf_ofNat (k : Nat) : classOf (BitVec.ofNat 16 k) = BitVec.ofNat 4 (k / 4096) := by
  apply BitVec.eq_of_toNat_eq; simp [classOf, Nat.shiftRight_eq_div_pow]; omega

@[simp] theorem xOf_ofNat (k : Nat) : xOf (BitVec.ofNat 16 k) = BitVec.ofNat 4 (k / 256) := by
  apply BitVec.eq_of_toNat_eq; simp [xOf, Nat.shiftRight_eq_div_pow]; omega

@[simp] theorem yOf_ofNat (k : Nat) : yOf (BitVec.ofNat 16 k) = BitVec.ofNat 4 (k / 16) := by
  apply BitVec.eq_of_toNat_eq; simp [yOf, Nat.shiftRight_eq_div_pow]; omega

@[simp] theorem nOf_ofNat (k : Nat) : nOf (BitVec.ofNat 16 k) = BitVec.ofNat 4 k := by
  apply BitVec.eq_of_toNat_eq; simp [nOf]

@[simp] theorem kkOf_ofNat (k : Nat) : kkOf (BitVec.ofNat 16 k) = BitVec.ofNat 8 k := by
  apply BitVec.eq_of_toNat_eq; simp [kkOf]

@[simp] theorem nnnOf_ofNat (k : Nat) : nnnOf (BitVec.ofNat 16 k) = BitVec.ofNat 12 k := by
  apply BitVec.eq_of_toNat_eq; simp [nnnOf]

/-! The fields of `x << 8` -/

@[simp] theorem classOf_atX (x : RegIdx) : classOf (atX x) = 0 := by
  ext i hi; simp [classOf, atX]; interval_cases i <;> simp

@[simp] theorem xOf_atX (x : RegIdx) : xOf (atX x) = x := by
  ext i hi; simp [xOf, atX]; interval_cases i <;> simp

@[simp] theorem yOf_atX (x : RegIdx) : yOf (atX x) = 0 := by
  ext i hi; simp [yOf, atX]; interval_cases i <;> simp

@[simp] theorem nOf_atX (x : RegIdx) : nOf (atX x) = 0 := by
  ext i hi; simp [nOf, atX]; interval_cases i <;> simp

@[simp] theorem kkOf_atX (x : RegIdx) : kkOf (atX x) = 0 := by
  ext i hi; simp [kkOf, atX]; interval_cases i <;> simp

/-! The fields of `y << 4` -/

@[simp] theorem classOf_atY (y : RegIdx) : classOf (atY y) = 0 := by
  ext i hi; simp [classOf, atY]; interval_cases i <;> simp

@[simp] theorem xOf_atY (y : RegIdx) : xOf (atY y) = 0 := by
  ext i hi; simp [xOf, atY]; interval_cases i <;> simp

@[simp] theorem yOf_atY (y : RegIdx) : yOf (atY y) = y := by
  ext i hi; simp [yOf, atY]; interval_cases i <;> simp

@[simp] theorem nOf_atY (y : RegIdx) : nOf (atY y) = 0 := by
  ext i hi; simp [nOf, atY]; interval_cases i <;> simp

/-! The fields of an immediate in the low bits -/

@[simp] theorem classOf_kk (kk : Byte) : classOf (kk.setWidth 16) = 0 := by
  ext i hi; simp [classOf]; interval_cases i <;> simp

@[simp] theorem xOf_kk (kk : Byte) : xOf (kk.setWidth 16) = 0 := by
  ext i hi; simp [xOf]

@[simp] theorem kkOf_kk (kk : Byte) : kkOf (kk.setWidth 16) = kk := by
  ext i hi; simp [kkOf]; interval_cases i <;> simp

@[simp] theorem classOf_n (n : Nibble) : classOf (n.setWidth 16) = 0 := by
  ext i hi; simp [classOf]; interval_cases i <;> simp

@[simp] theorem xOf_n (n : Nibble) : xOf (n.setWidth 16) = 0 := by
  ext i hi; simp [xOf]; interval_cases i <;> simp

@[simp] theorem yOf_n (n : Nibble) : yOf (n.setWidth 16) = 0 := by
  ext i hi; simp [yOf]

@[simp] theorem nOf_n (n : Nibble) : nOf (n.setWidth 16) = n := by
  ext i hi; simp [nOf]; interval_cases i <;> simp

@[simp] theorem classOf_nnn (nnn : Addr) : classOf (nnn.setWidth 16) = 0 := by
  ext i hi; simp [classOf]

@[simp] theorem nnnOf_nnn (nnn : Addr) : nnnOf (nnn.setWidth 16) = nnn := by
  ext i hi; simp [nnnOf]; interval_cases i <;> simp

/-! A word is its fields put back together -/

/-- The word whose class nibble is `c` and whose other fields are all 0. -/
def classWord (c : Nibble) : Word := c.setWidth 16 <<< 12

theorem word_eq_nnn (w : Word) : w = classWord (classOf w) ||| (nnnOf w).setWidth 16 := by
  ext i hi; simp [classWord, classOf, nnnOf]; interval_cases i <;> simp

theorem word_eq_xkk (w : Word) : w = classWord (classOf w) ||| atX (xOf w) ||| (kkOf w).setWidth 16 := by
  ext i hi; simp [classWord, classOf, xOf, kkOf, atX]; interval_cases i <;> simp

theorem word_eq_xyn (w : Word) :
    w = classWord (classOf w) ||| atX (xOf w) ||| atY (yOf w) ||| (nOf w).setWidth 16 := by
  ext i hi; simp [classWord, classOf, xOf, yOf, nOf, atX, atY]; interval_cases i <;> simp

/-- Words with the same class and `nnn` are the same. -/
theorem word_ext_nnn {a b : Word} (h : classOf a = classOf b) (h1 : nnnOf a = nnnOf b) : a = b := by
  rw [word_eq_nnn a, word_eq_nnn b, h, h1]

/-- Words with the same class, `x` and `kk` are the same. -/
theorem word_ext_xkk {a b : Word} (h : classOf a = classOf b) (h1 : xOf a = xOf b) (h2 : kkOf a = kkOf b) : a = b := by
  rw [word_eq_xkk a, word_eq_xkk b, h, h1, h2]

/-- Words with the same class, `x`, `y` and `n` are the same. -/
theorem word_ext_xyn {a b : Word} (h : classOf a = classOf b) (h1 : xOf a = xOf b) (h2 : yOf a = yOf b)
    (h3 : nOf a = nOf b) : a = b := by
  rw [word_eq_xyn a, word_eq_xyn b, h, h1, h2, h3]

/-! Bytes and words -/

theorem wordOfBytes_bytesOfWord (w : Word) : wordOfBytes (w.extractLsb' 8 8) (w.extractLsb' 0 8) = w := by
  ext i hi; simp [wordOfBytes]; interval_cases i <;> simp

theorem decodeBytes_bytesOfWord (w : Word) (rest : List Byte) :
    decodeBytes (bytesOfWord w ++ rest) = (decode w).map fun i => (i, rest) := by
  simp only [bytesOfWord, List.cons_append, List.nil_append, decodeBytes, wordOfBytes_bytesOfWord]
  cases decode w <;> rfl

theorem toNat_wordOfBytes (hi lo : Byte) : (wordOfBytes hi lo).toNat = 256 * hi.toNat + lo.toNat := by
  have h := Nat.shiftLeft_add_eq_or_of_lt lo.isLt hi.toNat
  have h1 := hi.isLt
  simp only [wordOfBytes, BitVec.toNat_or, BitVec.toNat_shiftLeft, BitVec.toNat_setWidth] at *
  rw [Nat.mod_eq_of_lt (a := hi.toNat) (by omega), Nat.mod_eq_of_lt (a := lo.toNat) (by omega),
    Nat.mod_eq_of_lt (a := hi.toNat <<< 8) (by rw [Nat.shiftLeft_eq]; omega), ← h, Nat.shiftLeft_eq]
  omega

end Sys2Proof
end

