-- ==== Sys2Proof/Laws/State.lean ====
section
/-! SUPPORT. What each update of the state does to each field: one lemma per field per update, so that no proof unfolds a
record update; and the registers and bytes seen through the accessors. -/

namespace Sys2Proof.Machine

open Sys2Proof

variable (s : State)

/-! `State.advance` -/

@[simp] theorem State.advance_mem : s.advance.mem = s.mem := rfl
@[simp] theorem State.advance_V : s.advance.V = s.V := rfl
@[simp] theorem State.advance_I : s.advance.I = s.I := rfl
@[simp] theorem State.advance_pc : s.advance.pc = s.pc + 2 := rfl
@[simp] theorem State.advance_SP : s.advance.SP = s.SP := rfl
@[simp] theorem State.advance_stack : s.advance.stack = s.stack := rfl
@[simp] theorem State.advance_DT : s.advance.DT = s.DT := rfl
@[simp] theorem State.advance_ST : s.advance.ST = s.ST := rfl
@[simp] theorem State.advance_disp : s.advance.disp = s.disp := rfl
@[simp] theorem State.advance_keys : s.advance.keys = s.keys := rfl
@[simp] theorem State.advance_fault : s.advance.fault = s.fault := rfl
@[simp] theorem State.advance_rnd : s.advance.rnd = s.rnd := rfl
@[simp] theorem State.advance_draws : s.advance.draws = s.draws := rfl
@[simp] theorem State.advance_inputs : s.advance.inputs = s.inputs := rfl
@[simp] theorem State.advance_out : s.advance.out = s.out := rfl

/-! `State.jump` -/

@[simp] theorem State.jump_mem (target : Word) : (s.jump target).mem = s.mem := rfl
@[simp] theorem State.jump_V (target : Word) : (s.jump target).V = s.V := rfl
@[simp] theorem State.jump_I (target : Word) : (s.jump target).I = s.I := rfl
@[simp] theorem State.jump_pc (target : Word) : (s.jump target).pc = target := rfl
@[simp] theorem State.jump_SP (target : Word) : (s.jump target).SP = s.SP := rfl
@[simp] theorem State.jump_stack (target : Word) : (s.jump target).stack = s.stack := rfl
@[simp] theorem State.jump_DT (target : Word) : (s.jump target).DT = s.DT := rfl
@[simp] theorem State.jump_ST (target : Word) : (s.jump target).ST = s.ST := rfl
@[simp] theorem State.jump_disp (target : Word) : (s.jump target).disp = s.disp := rfl
@[simp] theorem State.jump_keys (target : Word) : (s.jump target).keys = s.keys := rfl
@[simp] theorem State.jump_fault (target : Word) : (s.jump target).fault = s.fault := rfl
@[simp] theorem State.jump_rnd (target : Word) : (s.jump target).rnd = s.rnd := rfl
@[simp] theorem State.jump_draws (target : Word) : (s.jump target).draws = s.draws := rfl
@[simp] theorem State.jump_inputs (target : Word) : (s.jump target).inputs = s.inputs := rfl
@[simp] theorem State.jump_out (target : Word) : (s.jump target).out = s.out := rfl

/-! `State.setReg` -/

@[simp] theorem State.setReg_mem (i : RegIdx) (v : Byte) : (s.setReg i v).mem = s.mem := rfl
@[simp] theorem State.setReg_V (i : RegIdx) (v : Byte) : (s.setReg i v).V = s.V.set i.toNat v i.isLt := rfl
@[simp] theorem State.setReg_I (i : RegIdx) (v : Byte) : (s.setReg i v).I = s.I := rfl
@[simp] theorem State.setReg_pc (i : RegIdx) (v : Byte) : (s.setReg i v).pc = s.pc := rfl
@[simp] theorem State.setReg_SP (i : RegIdx) (v : Byte) : (s.setReg i v).SP = s.SP := rfl
@[simp] theorem State.setReg_stack (i : RegIdx) (v : Byte) : (s.setReg i v).stack = s.stack := rfl
@[simp] theorem State.setReg_DT (i : RegIdx) (v : Byte) : (s.setReg i v).DT = s.DT := rfl
@[simp] theorem State.setReg_ST (i : RegIdx) (v : Byte) : (s.setReg i v).ST = s.ST := rfl
@[simp] theorem State.setReg_disp (i : RegIdx) (v : Byte) : (s.setReg i v).disp = s.disp := rfl
@[simp] theorem State.setReg_keys (i : RegIdx) (v : Byte) : (s.setReg i v).keys = s.keys := rfl
@[simp] theorem State.setReg_fault (i : RegIdx) (v : Byte) : (s.setReg i v).fault = s.fault := rfl
@[simp] theorem State.setReg_rnd (i : RegIdx) (v : Byte) : (s.setReg i v).rnd = s.rnd := rfl
@[simp] theorem State.setReg_draws (i : RegIdx) (v : Byte) : (s.setReg i v).draws = s.draws := rfl
@[simp] theorem State.setReg_inputs (i : RegIdx) (v : Byte) : (s.setReg i v).inputs = s.inputs := rfl
@[simp] theorem State.setReg_out (i : RegIdx) (v : Byte) : (s.setReg i v).out = s.out := rfl

/-! `State.writeByte` -/

@[simp] theorem State.writeByte_mem (a : Nat) (v : Byte) : (s.writeByte a v).mem = s.mem.write a v := rfl
@[simp] theorem State.writeByte_V (a : Nat) (v : Byte) : (s.writeByte a v).V = s.V := rfl
@[simp] theorem State.writeByte_I (a : Nat) (v : Byte) : (s.writeByte a v).I = s.I := rfl
@[simp] theorem State.writeByte_pc (a : Nat) (v : Byte) : (s.writeByte a v).pc = s.pc := rfl
@[simp] theorem State.writeByte_SP (a : Nat) (v : Byte) : (s.writeByte a v).SP = s.SP := rfl
@[simp] theorem State.writeByte_stack (a : Nat) (v : Byte) : (s.writeByte a v).stack = s.stack := rfl
@[simp] theorem State.writeByte_DT (a : Nat) (v : Byte) : (s.writeByte a v).DT = s.DT := rfl
@[simp] theorem State.writeByte_ST (a : Nat) (v : Byte) : (s.writeByte a v).ST = s.ST := rfl
@[simp] theorem State.writeByte_disp (a : Nat) (v : Byte) : (s.writeByte a v).disp = s.disp := rfl
@[simp] theorem State.writeByte_keys (a : Nat) (v : Byte) : (s.writeByte a v).keys = s.keys := rfl
@[simp] theorem State.writeByte_fault (a : Nat) (v : Byte) : (s.writeByte a v).fault = s.fault := rfl
@[simp] theorem State.writeByte_rnd (a : Nat) (v : Byte) : (s.writeByte a v).rnd = s.rnd := rfl
@[simp] theorem State.writeByte_draws (a : Nat) (v : Byte) : (s.writeByte a v).draws = s.draws := rfl
@[simp] theorem State.writeByte_inputs (a : Nat) (v : Byte) : (s.writeByte a v).inputs = s.inputs := rfl
@[simp] theorem State.writeByte_out (a : Nat) (v : Byte) : (s.writeByte a v).out = s.out := rfl

/-! `State.push` -/

@[simp] theorem State.push_mem (ret : Word) : (s.push ret).mem = s.mem := rfl
@[simp] theorem State.push_V (ret : Word) : (s.push ret).V = s.V := rfl
@[simp] theorem State.push_I (ret : Word) : (s.push ret).I = s.I := rfl
@[simp] theorem State.push_pc (ret : Word) : (s.push ret).pc = s.pc := rfl
@[simp] theorem State.push_SP (ret : Word) : (s.push ret).SP = s.SP + 1 := rfl
@[simp] theorem State.push_stack (ret : Word) : (s.push ret).stack = s.stack.setIfInBounds s.SP.toNat ret := rfl
@[simp] theorem State.push_DT (ret : Word) : (s.push ret).DT = s.DT := rfl
@[simp] theorem State.push_ST (ret : Word) : (s.push ret).ST = s.ST := rfl
@[simp] theorem State.push_disp (ret : Word) : (s.push ret).disp = s.disp := rfl
@[simp] theorem State.push_keys (ret : Word) : (s.push ret).keys = s.keys := rfl
@[simp] theorem State.push_fault (ret : Word) : (s.push ret).fault = s.fault := rfl
@[simp] theorem State.push_rnd (ret : Word) : (s.push ret).rnd = s.rnd := rfl
@[simp] theorem State.push_draws (ret : Word) : (s.push ret).draws = s.draws := rfl
@[simp] theorem State.push_inputs (ret : Word) : (s.push ret).inputs = s.inputs := rfl
@[simp] theorem State.push_out (ret : Word) : (s.push ret).out = s.out := rfl

/-! `State.popSP` -/

@[simp] theorem State.popSP_mem : s.popSP.mem = s.mem := rfl
@[simp] theorem State.popSP_V : s.popSP.V = s.V := rfl
@[simp] theorem State.popSP_I : s.popSP.I = s.I := rfl
@[simp] theorem State.popSP_pc : s.popSP.pc = s.pc := rfl
@[simp] theorem State.popSP_SP : s.popSP.SP = s.SP - 1 := rfl
@[simp] theorem State.popSP_stack : s.popSP.stack = s.stack := rfl
@[simp] theorem State.popSP_DT : s.popSP.DT = s.DT := rfl
@[simp] theorem State.popSP_ST : s.popSP.ST = s.ST := rfl
@[simp] theorem State.popSP_disp : s.popSP.disp = s.disp := rfl
@[simp] theorem State.popSP_keys : s.popSP.keys = s.keys := rfl
@[simp] theorem State.popSP_fault : s.popSP.fault = s.fault := rfl
@[simp] theorem State.popSP_rnd : s.popSP.rnd = s.rnd := rfl
@[simp] theorem State.popSP_draws : s.popSP.draws = s.draws := rfl
@[simp] theorem State.popSP_inputs : s.popSP.inputs = s.inputs := rfl
@[simp] theorem State.popSP_out : s.popSP.out = s.out := rfl

/-! `State.clearFault` -/

@[simp] theorem State.clearFault_mem : s.clearFault.mem = s.mem := rfl
@[simp] theorem State.clearFault_V : s.clearFault.V = s.V := rfl
@[simp] theorem State.clearFault_I : s.clearFault.I = s.I := rfl
@[simp] theorem State.clearFault_pc : s.clearFault.pc = s.pc := rfl
@[simp] theorem State.clearFault_SP : s.clearFault.SP = s.SP := rfl
@[simp] theorem State.clearFault_stack : s.clearFault.stack = s.stack := rfl
@[simp] theorem State.clearFault_DT : s.clearFault.DT = s.DT := rfl
@[simp] theorem State.clearFault_ST : s.clearFault.ST = s.ST := rfl
@[simp] theorem State.clearFault_disp : s.clearFault.disp = s.disp := rfl
@[simp] theorem State.clearFault_keys : s.clearFault.keys = s.keys := rfl
@[simp] theorem State.clearFault_fault : s.clearFault.fault = none := rfl
@[simp] theorem State.clearFault_rnd : s.clearFault.rnd = s.rnd := rfl
@[simp] theorem State.clearFault_draws : s.clearFault.draws = s.draws := rfl
@[simp] theorem State.clearFault_inputs : s.clearFault.inputs = s.inputs := rfl
@[simp] theorem State.clearFault_out : s.clearFault.out = s.out := rfl

/-! `State.advanceSkip`: one equation, then the fields -/

theorem State.advanceSkip_eq (c : Bool) :
    s.advanceSkip c = { s with pc := if c then s.pc + 2 + 2 else s.pc + 2 } := by
  cases c <;> rfl

@[simp] theorem State.advanceSkip_mem (c : Bool) : (s.advanceSkip c).mem = s.mem := by
  simp [State.advanceSkip_eq]
@[simp] theorem State.advanceSkip_V (c : Bool) : (s.advanceSkip c).V = s.V := by
  simp [State.advanceSkip_eq]
@[simp] theorem State.advanceSkip_I (c : Bool) : (s.advanceSkip c).I = s.I := by
  simp [State.advanceSkip_eq]
@[simp] theorem State.advanceSkip_pc (c : Bool) : (s.advanceSkip c).pc = if c then s.pc + 2 + 2 else s.pc + 2 := by
  simp [State.advanceSkip_eq]
@[simp] theorem State.advanceSkip_SP (c : Bool) : (s.advanceSkip c).SP = s.SP := by
  simp [State.advanceSkip_eq]
@[simp] theorem State.advanceSkip_stack (c : Bool) : (s.advanceSkip c).stack = s.stack := by
  simp [State.advanceSkip_eq]
@[simp] theorem State.advanceSkip_DT (c : Bool) : (s.advanceSkip c).DT = s.DT := by
  simp [State.advanceSkip_eq]
@[simp] theorem State.advanceSkip_ST (c : Bool) : (s.advanceSkip c).ST = s.ST := by
  simp [State.advanceSkip_eq]
@[simp] theorem State.advanceSkip_disp (c : Bool) : (s.advanceSkip c).disp = s.disp := by
  simp [State.advanceSkip_eq]
@[simp] theorem State.advanceSkip_keys (c : Bool) : (s.advanceSkip c).keys = s.keys := by
  simp [State.advanceSkip_eq]
@[simp] theorem State.advanceSkip_fault (c : Bool) : (s.advanceSkip c).fault = s.fault := by
  simp [State.advanceSkip_eq]
@[simp] theorem State.advanceSkip_rnd (c : Bool) : (s.advanceSkip c).rnd = s.rnd := by
  simp [State.advanceSkip_eq]
@[simp] theorem State.advanceSkip_draws (c : Bool) : (s.advanceSkip c).draws = s.draws := by
  simp [State.advanceSkip_eq]
@[simp] theorem State.advanceSkip_inputs (c : Bool) : (s.advanceSkip c).inputs = s.inputs := by
  simp [State.advanceSkip_eq]
@[simp] theorem State.advanceSkip_out (c : Bool) : (s.advanceSkip c).out = s.out := by
  simp [State.advanceSkip_eq]

/-! `State.writeBytes`: only `mem` changes -/

theorem State.writeBytes_eq (vs : List Byte) :
    ∀ (a : Nat) (s : State), s.writeBytes a vs = { s with mem := (s.writeBytes a vs).mem } := by
  induction vs with
  | nil => intro _ _; rfl
  | cons v vs ih => intro a s; exact ih (a + 1) (s.writeByte a v)

@[simp] theorem State.writeBytes_V (a : Nat) (vs : List Byte) : (s.writeBytes a vs).V = s.V := by
  rw [State.writeBytes_eq]
@[simp] theorem State.writeBytes_I (a : Nat) (vs : List Byte) : (s.writeBytes a vs).I = s.I := by
  rw [State.writeBytes_eq]
@[simp] theorem State.writeBytes_pc (a : Nat) (vs : List Byte) : (s.writeBytes a vs).pc = s.pc := by
  rw [State.writeBytes_eq]
@[simp] theorem State.writeBytes_SP (a : Nat) (vs : List Byte) : (s.writeBytes a vs).SP = s.SP := by
  rw [State.writeBytes_eq]
@[simp] theorem State.writeBytes_stack (a : Nat) (vs : List Byte) : (s.writeBytes a vs).stack = s.stack := by
  rw [State.writeBytes_eq]
@[simp] theorem State.writeBytes_DT (a : Nat) (vs : List Byte) : (s.writeBytes a vs).DT = s.DT := by
  rw [State.writeBytes_eq]
@[simp] theorem State.writeBytes_ST (a : Nat) (vs : List Byte) : (s.writeBytes a vs).ST = s.ST := by
  rw [State.writeBytes_eq]
@[simp] theorem State.writeBytes_disp (a : Nat) (vs : List Byte) : (s.writeBytes a vs).disp = s.disp := by
  rw [State.writeBytes_eq]
@[simp] theorem State.writeBytes_keys (a : Nat) (vs : List Byte) : (s.writeBytes a vs).keys = s.keys := by
  rw [State.writeBytes_eq]
@[simp] theorem State.writeBytes_fault (a : Nat) (vs : List Byte) : (s.writeBytes a vs).fault = s.fault := by
  rw [State.writeBytes_eq]
@[simp] theorem State.writeBytes_rnd (a : Nat) (vs : List Byte) : (s.writeBytes a vs).rnd = s.rnd := by
  rw [State.writeBytes_eq]
@[simp] theorem State.writeBytes_draws (a : Nat) (vs : List Byte) : (s.writeBytes a vs).draws = s.draws := by
  rw [State.writeBytes_eq]
@[simp] theorem State.writeBytes_inputs (a : Nat) (vs : List Byte) : (s.writeBytes a vs).inputs = s.inputs := by
  rw [State.writeBytes_eq]
@[simp] theorem State.writeBytes_out (a : Nat) (vs : List Byte) : (s.writeBytes a vs).out = s.out := by
  rw [State.writeBytes_eq]

/-! `State.setRegs`: only `V` changes -/

theorem State.setRegs_eq (vs : List Byte) :
    ∀ (k : Nat) (s : State), s.setRegs k vs = { s with V := (s.setRegs k vs).V } := by
  induction vs with
  | nil => intro _ _; rfl
  | cons v vs ih => intro k s; exact ih (k + 1) (s.setReg (BitVec.ofNat 4 k) v)

@[simp] theorem State.setRegs_mem (k : Nat) (vs : List Byte) : (s.setRegs k vs).mem = s.mem := by
  rw [State.setRegs_eq]
@[simp] theorem State.setRegs_I (k : Nat) (vs : List Byte) : (s.setRegs k vs).I = s.I := by
  rw [State.setRegs_eq]
@[simp] theorem State.setRegs_pc (k : Nat) (vs : List Byte) : (s.setRegs k vs).pc = s.pc := by
  rw [State.setRegs_eq]
@[simp] theorem State.setRegs_SP (k : Nat) (vs : List Byte) : (s.setRegs k vs).SP = s.SP := by
  rw [State.setRegs_eq]
@[simp] theorem State.setRegs_stack (k : Nat) (vs : List Byte) : (s.setRegs k vs).stack = s.stack := by
  rw [State.setRegs_eq]
@[simp] theorem State.setRegs_DT (k : Nat) (vs : List Byte) : (s.setRegs k vs).DT = s.DT := by
  rw [State.setRegs_eq]
@[simp] theorem State.setRegs_ST (k : Nat) (vs : List Byte) : (s.setRegs k vs).ST = s.ST := by
  rw [State.setRegs_eq]
@[simp] theorem State.setRegs_disp (k : Nat) (vs : List Byte) : (s.setRegs k vs).disp = s.disp := by
  rw [State.setRegs_eq]
@[simp] theorem State.setRegs_keys (k : Nat) (vs : List Byte) : (s.setRegs k vs).keys = s.keys := by
  rw [State.setRegs_eq]
@[simp] theorem State.setRegs_fault (k : Nat) (vs : List Byte) : (s.setRegs k vs).fault = s.fault := by
  rw [State.setRegs_eq]
@[simp] theorem State.setRegs_rnd (k : Nat) (vs : List Byte) : (s.setRegs k vs).rnd = s.rnd := by
  rw [State.setRegs_eq]
@[simp] theorem State.setRegs_draws (k : Nat) (vs : List Byte) : (s.setRegs k vs).draws = s.draws := by
  rw [State.setRegs_eq]
@[simp] theorem State.setRegs_inputs (k : Nat) (vs : List Byte) : (s.setRegs k vs).inputs = s.inputs := by
  rw [State.setRegs_eq]
@[simp] theorem State.setRegs_out (k : Nat) (vs : List Byte) : (s.setRegs k vs).out = s.out := by
  rw [State.setRegs_eq]

/-! The accessors after the updates -/

@[simp] theorem State.reg_advance (i : RegIdx) : s.advance.reg i = s.reg i := rfl
@[simp] theorem State.reg_jump (t : Word) (i : RegIdx) : (s.jump t).reg i = s.reg i := rfl
@[simp] theorem State.readByte_advance (a : Nat) : s.advance.readByte a = s.readByte a := rfl
@[simp] theorem State.readByte_setReg (i : RegIdx) (v : Byte) (a : Nat) : (s.setReg i v).readByte a = s.readByte a := rfl

theorem State.reg_setReg (i j : RegIdx) (v : Byte) : (s.setReg i v).reg j = if j = i then v else s.reg j := by
  unfold State.reg State.setReg
  simp only [Vector.get_eq_getElem, Vector.getElem_set]
  rcases eq_or_ne j i with rfl | h
  · simp
  · rw [if_neg h, if_neg]
    exact fun e => h (BitVec.eq_of_toNat_eq e.symm)

@[simp] theorem State.reg_setReg_self (i : RegIdx) (v : Byte) : (s.setReg i v).reg i = v := by simp [State.reg_setReg]

theorem State.reg_setReg_ne {i j : RegIdx} (h : j ≠ i) (v : Byte) : (s.setReg i v).reg j = s.reg j := by
  simp [State.reg_setReg, h]

/-- Two register files that read the same are the same. -/
theorem State.V_ext {s t : State} (h : ∀ r, s.reg r = t.reg r) : s.V = t.V := by
  refine Vector.ext fun i hi => ?_
  simpa [State.reg, Vector.get_eq_getElem] using h (BitVec.ofFin ⟨i, hi⟩)

/-- The registers after `setRegs`: those numbered from `k` take the list's bytes, while numbers stay below 16. -/
theorem State.reg_setRegs (vs : List Byte) :
    ∀ (k : Nat) (s : State) (r : RegIdx), k + vs.length ≤ 16 →
      (s.setRegs k vs).reg r = if h : k ≤ r.toNat ∧ r.toNat - k < vs.length then vs[r.toNat - k]'h.2 else s.reg r := by
  induction vs with
  | nil => intro k s r _; simp [State.setRegs]
  | cons v vs ih =>
    intro k s r hk
    simp only [List.length_cons] at hk
    rw [State.setRegs, ih (k + 1) _ r (by omega), State.reg_setReg]
    have hofNat : (BitVec.ofNat 4 k).toNat = k := by simp; omega
    by_cases hr : r.toNat = k
    · have : r = BitVec.ofNat 4 k := BitVec.eq_of_toNat_eq (by omega)
      subst this
      simp [hofNat]
    · have hne : r ≠ BitVec.ofNat 4 k := fun e => hr (by rw [e, hofNat])
      by_cases hlt : k + 1 ≤ r.toNat ∧ r.toNat - (k + 1) < vs.length
      · have h2 : k ≤ r.toNat ∧ r.toNat - k < (v :: vs).length := by simp only [List.length_cons]; omega
        rw [dif_pos hlt, dif_pos h2]
        have : r.toNat - k = (r.toNat - (k + 1)) + 1 := by omega
        simp [this]
      · have h2 : ¬(k ≤ r.toNat ∧ r.toNat - k < (v :: vs).length) := by simp only [List.length_cons]; omega
        rw [dif_neg hlt, dif_neg h2, if_neg hne]

end Sys2Proof.Machine
end

