-- ==== Sys2Proof/Laws/Memory.lean ====
section
/-! SUPPORT. The laws of memory: a read after a write, the canonical form, runs of bytes, and equal memories are equal
data. -/

namespace Sys2Proof.Machine

open Sys2Proof

@[simp] theorem Memory.read_nil (a : Nat) : Memory.read [] a = initialByte a := rfl

theorem Memory.read_cons (b : Nat) (v : Byte) (rest : Memory) (a : Nat) :
    Memory.read ((b, v) :: rest) a = if b = a then v else Memory.read rest a := rfl

/-- An address below every entry is unlisted. -/
theorem Memory.read_of_lt {m : Memory} {a : Nat} (h : ∀ c ∈ m, a < c.1) : m.read a = initialByte a := by
  induction m with
  | nil => rfl
  | cons c rest ih =>
    obtain ⟨b, v⟩ := c
    have hb : a < b := h (b, v) (by simp)
    rw [Memory.read_cons, if_neg (by omega)]
    exact ih fun d hd => h d (by simp [hd])

theorem Memory.read_cellOf_append (a : Nat) (v : Byte) (rest : Memory) (b : Nat) (h : ∀ c ∈ rest, a < c.1) :
    Memory.read (cellOf a v ++ rest) b = if b = a then v else rest.read b := by
  unfold cellOf
  split
  · rcases eq_or_ne b a with rfl | hne
    · simpa [Memory.read_of_lt h] using ‹v = _›.symm
    · simp [hne]
  · rw [List.singleton_append, Memory.read_cons]
    simp only [eq_comm]

theorem Memory.wf_tail {c : Host.Cell} {rest : Memory} (h : Memory.wf (c :: rest)) : Memory.wf rest :=
  ⟨(List.pairwise_cons.1 h.1).2, fun d hd => h.2 d (by simp [hd])⟩

theorem Memory.wf_head {c : Host.Cell} {rest : Memory} (h : Memory.wf (c :: rest)) : ∀ d ∈ rest, c.1 < d.1 :=
  (List.pairwise_cons.1 h.1).1

/-- Reading after a write: the byte written there, and every other byte as before. -/
theorem Memory.read_write {m : Memory} (h : m.wf) (a : Nat) (v : Byte) (b : Nat) :
    (m.write a v).read b = if b = a then v else m.read b := by
  induction m with
  | nil => simpa [Memory.write] using Memory.read_cellOf_append a v [] b (by simp)
  | cons c rest ih =>
    obtain ⟨b', w⟩ := c
    have hhead := Memory.wf_head h
    rw [Memory.write]
    split
    · refine Memory.read_cellOf_append a v _ b fun d hd => ?_
      rcases List.mem_cons.1 hd with rfl | hd
      · assumption
      · exact lt_trans (by assumption) (hhead d hd)
    · split
      · rename_i _ hab
        subst hab
        rw [Memory.read_cellOf_append a v rest b hhead, Memory.read_cons]
        rcases eq_or_ne b a with rfl | hne
        · simp
        · simp [hne, hne.symm]
      · rw [Memory.read_cons, ih (Memory.wf_tail h), Memory.read_cons]
        rcases eq_or_ne b' b with rfl | hne
        · rw [if_pos rfl, if_pos rfl, if_neg (by omega)]
        · simp [hne]

theorem Memory.mem_cellOf {a : Nat} {v : Byte} {c : Host.Cell} (h : c ∈ cellOf a v) :
    c = (a, v) ∧ v ≠ initialByte a := by
  unfold cellOf at h
  split at h <;> simp_all

theorem Memory.mem_write {m : Memory} {a : Nat} {v : Byte} {c : Host.Cell} (h : c ∈ m.write a v) :
    (c = (a, v) ∧ v ≠ initialByte a) ∨ c ∈ m := by
  induction m with
  | nil => exact .inl (Memory.mem_cellOf h)
  | cons d rest ih =>
    obtain ⟨b, w⟩ := d
    rw [Memory.write] at h
    split at h
    · exact (List.mem_append.1 h).imp Memory.mem_cellOf id
    · split at h
      · exact (List.mem_append.1 h).imp Memory.mem_cellOf (List.mem_cons_of_mem _)
      · rcases List.mem_cons.1 h with rfl | h
        · simp
        · exact (ih h).imp id (List.mem_cons_of_mem _)

theorem Memory.pairwise_cellOf_append {a : Nat} {v : Byte} {rest : Memory} (h : rest.Pairwise (fun c d => c.1 < d.1))
    (hlt : ∀ c ∈ rest, a < c.1) : (cellOf a v ++ rest).Pairwise (fun c d => c.1 < d.1) := by
  unfold cellOf
  split
  · simpa using h
  · exact List.pairwise_cons.2 ⟨hlt, h⟩

/-- A write inside memory keeps the canonical form. -/
theorem Memory.wf_write {m : Memory} (h : m.wf) {a : Nat} (ha : a < Config.memSize) (v : Byte) : (m.write a v).wf := by
  refine ⟨?_, fun c hc => ?_⟩
  · induction m with
    | nil => unfold Memory.write cellOf; split <;> simp
    | cons d rest ih =>
      obtain ⟨b, w⟩ := d
      have hhead := Memory.wf_head h
      rw [Memory.write]
      split
      · refine Memory.pairwise_cellOf_append h.1 fun d hd => ?_
        rcases List.mem_cons.1 hd with rfl | hd
        · assumption
        · exact lt_trans (by assumption) (hhead d hd)
      · split
        · rename_i _ hab
          subst hab
          exact Memory.pairwise_cellOf_append (Memory.wf_tail h).1 hhead
        · refine List.pairwise_cons.2 ⟨fun d hd => ?_, ih (Memory.wf_tail h)⟩
          rcases Memory.mem_write hd with ⟨rfl, -⟩ | hd
          · show b < a
            omega
          · exact hhead d hd
  · rcases Memory.mem_write hc with ⟨rfl, hv⟩ | hc
    · exact ⟨ha, hv⟩
    · exact h.2 c hc

theorem State.readByte_writeByte {s : State} (h : s.mem.wf) (a : Nat) (v : Byte) (b : Nat) :
    (s.writeByte a v).readByte b = if b = a then v else s.readByte b :=
  Memory.read_write h a v b

/-- A run of writes inside memory keeps the canonical form. -/
theorem State.wf_writeBytes (vs : List Byte) :
    ∀ (a : Nat) (s : State), s.mem.wf → a + vs.length ≤ Config.memSize → (s.writeBytes a vs).mem.wf := by
  induction vs with
  | nil => exact fun _ _ h _ => h
  | cons v vs ih =>
    intro a s h hlen
    simp only [List.length_cons] at hlen
    exact ih (a + 1) _ (Memory.wf_write h (by omega) v) (by omega)

/-- Reading after a run of writes: the run's bytes at its addresses, and every other byte as before. -/
theorem State.readByte_writeBytes (vs : List Byte) :
    ∀ (a : Nat) (s : State) (b : Nat), s.mem.wf → a + vs.length ≤ Config.memSize →
      (s.writeBytes a vs).readByte b = if h : a ≤ b ∧ b - a < vs.length then vs[b - a]'h.2 else s.readByte b := by
  induction vs with
  | nil => intro a s b _ _; simp [State.writeBytes]
  | cons v vs ih =>
    intro a s b h hlen
    simp only [List.length_cons] at hlen
    rw [State.writeBytes, ih (a + 1) _ b (Memory.wf_write h (by omega) v) (by omega), State.readByte_writeByte h]
    by_cases hb : b = a
    · subst hb; simp
    · by_cases hlt : a + 1 ≤ b ∧ b - (a + 1) < vs.length
      · have h2 : a ≤ b ∧ b - a < (v :: vs).length := by simp only [List.length_cons]; omega
        rw [dif_pos hlt, dif_pos h2]
        have : b - a = (b - (a + 1)) + 1 := by omega
        simp [this]
      · have h2 : ¬(a ≤ b ∧ b - a < (v :: vs).length) := by simp only [List.length_cons]; omega
        rw [dif_neg hlt, dif_neg h2, if_neg hb]

@[simp] theorem State.length_readBytes (s : State) (a n : Nat) : (s.readBytes a n).length = n := by
  simp [State.readBytes]

@[simp] theorem State.getElem_readBytes (s : State) (a n k : Nat) (h : k < (s.readBytes a n).length) :
    (s.readBytes a n)[k] = s.readByte (a + k) := by
  simp [State.readBytes]

/-- An entry's own address reads as the entry's byte. -/
theorem Memory.read_mem {m : Memory} (h : m.wf) {c : Host.Cell} (hc : c ∈ m) : m.read c.1 = c.2 := by
  induction m with
  | nil => simp at hc
  | cons d rest ih =>
    obtain ⟨b, w⟩ := d
    rcases List.mem_cons.1 hc with rfl | hc
    · simp [Memory.read_cons]
    · have := Memory.wf_head h c hc
      rw [Memory.read_cons, if_neg (by simp only at this; omega), ih (Memory.wf_tail h) hc]

end Sys2Proof.Machine
end

