-- ==== Sys2Proof/Laws/Ops.lean ====
section
/-! SUPPORT. What each shared operation can do, said once: the range and key checks, taking a fault, the flag and result
writes, the stack, the display and the key latch. -/

namespace Sys2Proof.Machine

open Sys2Proof

/-! Range checks -/

theorem lowestOutOfRange_none {base n : Nat} (h : InRange base n) : lowestOutOfRange base n = none := by
  simp only [lowestOutOfRange, List.find?_eq_none, List.mem_map, List.mem_range]
  rintro a ⟨k, hk, rfl⟩
  simpa using h k hk

theorem lowestOutOfRange_spec {base n a : Nat} (h : lowestOutOfRange base n = some a) : LowestOutOfRange base n a := by
  unfold lowestOutOfRange at h
  rw [List.find?_map, Option.map_eq_some_iff] at h
  obtain ⟨k, hk, rfl⟩ := h
  rw [List.find?_range_eq_some] at hk
  obtain ⟨hp, hk, hmin⟩ := hk
  simp only [List.mem_range] at hk
  refine ⟨by omega, by omega, by simpa using hp, fun b hb hlt => ?_⟩
  have := hmin (b - base) (by omega)
  simp only [Function.comp, Bool.not_eq_true', decide_eq_false_iff_not] at this
  omega

theorem lowestOutOfRange_some {base n a : Nat} (h : LowestOutOfRange base n a) : lowestOutOfRange base n = some a := by
  obtain ⟨h1, h2, h3, h4⟩ := h
  cases e : lowestOutOfRange base n with
  | none =>
    simp only [lowestOutOfRange, List.find?_eq_none, List.mem_map, List.mem_range] at e
    have := e a ⟨a - base, by omega, by omega⟩
    simp at this
    omega
  | some b =>
    obtain ⟨g1, g2, g3, g4⟩ := lowestOutOfRange_spec e
    rcases Nat.lt_trichotomy a b with hab | rfl | hab
    · have := g4 a h1 hab; omega
    · rfl
    · have := h4 b g1 hab; omega

/-- Either every address is in range or there is a lowest one that is not. -/
theorem inRange_or_lowest (base n : Nat) : InRange base n ∨ ∃ a, LowestOutOfRange base n a := by
  cases e : lowestOutOfRange base n with
  | none =>
    refine .inl fun k hk => ?_
    simp only [lowestOutOfRange, List.find?_eq_none, List.mem_map, List.mem_range] at e
    simpa using e (base + k) ⟨k, hk, rfl⟩
  | some a => exact .inr ⟨a, lowestOutOfRange_spec e⟩

theorem withDataRange_inRange {n : Nat} {s : State} (h : InRange (s.ea 0) n) (body : Result) :
    withDataRange n s body = body := by
  simp [withDataRange, lowestOutOfRange_none h]

theorem withDataRange_lowest {n a : Nat} {s : State} (h : LowestOutOfRange (s.ea 0) n a) (body : Result) :
    withDataRange n s body = raise .dataOutOfRange a s := by
  simp [withDataRange, lowestOutOfRange_some h]

/-- What a range-checked instruction can do: run its body with every address in range, or take the fault. -/
theorem withDataRange_cases (n : Nat) (s : State) (body : Result) :
    (InRange (s.ea 0) n ∧ withDataRange n s body = body) ∨
    ∃ a, LowestOutOfRange (s.ea 0) n a ∧ withDataRange n s body = raise .dataOutOfRange a s := by
  rcases inRange_or_lowest (s.ea 0) n with h | ⟨a, h⟩
  · exact .inl ⟨h, withDataRange_inRange h body⟩
  · exact .inr ⟨a, h, withDataRange_lowest h body⟩

theorem InRange.le {base n : Nat} (h : InRange base n) (hn : 0 < n) : base + n ≤ Config.memSize := by
  have := h (n - 1) (by omega)
  show base + n ≤ 4096
  omega

/-! Taking a fault -/

theorem raise_eq (cause : FaultCause) (info : Nat) (s : State) :
    raise cause info s = .next { s with fault := some ⟨cause, s.pc, info⟩ } := rfl

theorem withKey_le {k : Byte} {s : State} (h : k.toNat ≤ 15) (body : Bool → Result) :
    withKey k s body = body (s.keyDown k.toNat) := by
  simp [withKey, Nat.not_lt.2 h]

theorem withKey_gt {k : Byte} {s : State} (h : 15 < k.toNat) (body : Bool → Result) :
    withKey k s body = raise .keyOutOfRange k.toNat s := by
  simp [withKey, h]

/-! The flag and the result -/

/-- `VF` and `V[x]` are the only registers written. -/
theorem reg_writeFlagResult_other (order : Config.FlagWriteOrder) {x r : RegIdx} (hx : r ≠ x) (hf : r ≠ VF) (flag : Bool)
    (res : Byte) (s : State) : (writeFlagResult order x flag res s).reg r = s.reg r := by
  cases order <;> simp [writeFlagResult, State.reg_setReg, hx, hf]

theorem reg_writeFlagResult_dest (order : Config.FlagWriteOrder) {x : RegIdx} (hx : x ≠ VF) (flag : Bool) (res : Byte)
    (s : State) : (writeFlagResult order x flag res s).reg x = res := by
  cases order <;> simp [writeFlagResult, State.reg_setReg, hx]

theorem reg_writeFlagResult_flag (order : Config.FlagWriteOrder) {x : RegIdx} (hx : x ≠ VF) (flag : Bool) (res : Byte)
    (s : State) : (writeFlagResult order x flag res s).reg VF = b2n flag := by
  cases order <;> simp [writeFlagResult, State.reg_setReg, hx.symm]

/-- With `x = 15` the later of the two writes stays. -/
theorem reg_writeFlagResult_vf (order : Config.FlagWriteOrder) (flag : Bool) (res : Byte) (s : State) :
    (writeFlagResult order VF flag res s).reg VF =
      match order with
      | .flagThenResult => res
      | .resultThenFlag => b2n flag := by
  cases order <;> simp [writeFlagResult]

theorem writeFlagResult_eq (order : Config.FlagWriteOrder) (x : RegIdx) (flag : Bool) (res : Byte) (s : State) :
    writeFlagResult order x flag res s = { s with V := (writeFlagResult order x flag res s).V } := by
  cases order <;> rfl

/-! The stack -/

theorem State.popSlot_of_le {s : State} (h0 : s.SP ≠ 0) (h : s.SP.toNat ≤ 16) :
    ∃ hlt : s.SP.toNat - 1 < 16, s.popSlot = some (s.stack[s.SP.toNat - 1]'hlt) := by
  have hpos : 0 < s.SP.toNat := by
    rcases Nat.eq_zero_or_pos s.SP.toNat with e | e
    · exact absurd (BitVec.eq_of_toNat_eq (by simpa using e)) h0
    · exact e
  have hsub : (s.SP - 1).toNat = s.SP.toNat - 1 := by
    rw [BitVec.toNat_sub_of_le (by simp [BitVec.le_def]; omega)]; rfl
  refine ⟨by omega, ?_⟩
  rw [State.popSlot, hsub]
  simp

/-! The display -/

theorem Display.pixel_setPixel (d : Display) (r r' : Fin 32) (c c' : Fin 64) (b : Bool) :
    (d.setPixel r c b).pixel r' c' = if r' = r ∧ c' = c then b else d.pixel r' c' := by
  unfold Display.pixel Display.setPixel
  simp only [Vector.get_eq_getElem, Vector.getElem_set]
  by_cases hr : r' = r
  · subst hr
    by_cases hc : c' = c
    · subst hc; simp
    · have : c.val ≠ c'.val := fun e => hc (Fin.ext e.symm)
      simp [hc, this]
  · have : r.val ≠ r'.val := fun e => hr (Fin.ext e.symm)
    simp [hr, this]

@[simp] theorem Display.pixel_off (r : Fin 32) (c : Fin 64) : Display.off.pixel r c = false := by
  simp [Display.pixel, Display.off, Vector.get_eq_getElem]

/-- Two displays with the same pixels are the same. -/
theorem Display.ext_pixel {d e : Display} (h : ∀ r c, d.pixel r c = e.pixel r c) : d = e := by
  refine Vector.ext fun i hi => Vector.ext fun j hj => ?_
  simpa [Display.pixel, Vector.get_eq_getElem] using h ⟨i, hi⟩ ⟨j, hj⟩

/-! The key latch -/

theorem State.leastKey_some {s : State} {k : Nat} :
    s.leastKey = some k ↔ k < 16 ∧ s.keyDown k = true ∧ ∀ j, j < k → s.keyDown j = false := by
  rw [State.leastKey, List.find?_range_eq_some]
  simp only [List.mem_range, Bool.not_eq_true']
  tauto

theorem State.leastKey_none {s : State} : s.leastKey = none ↔ ∀ k, k < 16 → s.keyDown k = false := by
  simp [State.leastKey, List.find?_eq_none]

end Sys2Proof.Machine
end

