-- ==== Sys2Proof/Laws/Step.lean ====
section
/-! SUPPORT. What a Cycle and a step can do, said once: inversion lemmas that later proofs cite instead of unfolding the
step. -/

namespace Sys2Proof.Machine

open Sys2Proof

/-- A completed fetch: `pc` is at most 0xFFE and the word is that of the two bytes there. -/
theorem State.fetch_some {s : State} {w : Word} : s.fetch = some w ↔
    s.pc.toNat ≤ 0xFFE ∧ w = wordOfBytes (s.readByte s.pc.toNat) (s.readByte (s.pc.toNat + 1)) := by
  unfold State.fetch
  split
  · simp; omega
  · simp only [Option.some.injEq]
    exact ⟨fun h => ⟨by omega, h.symm⟩, fun h => h.2.symm⟩

theorem State.fetch_none {s : State} : s.fetch = none ↔ 0xFFE < s.pc.toNat := by
  unfold State.fetch
  split <;> simp <;> omega

/-- The decoder's only error on a word is that word as illegal. -/
theorem decode_error {w : Word} {e : DecodeError} (h : decode w = .error e) : e = .illegal w := by
  unfold decode decodeClass0 decodeClass8 decodeClassE decodeClassF at h
  repeat' split at h
  all_goals simp_all

/-- A Cycle's fetch, decode and execute: the fetch fault, the decode fault, or the instruction. -/
theorem fetchExecute_cases (s : State) :
    (0xFFE < s.pc.toNat ∧ fetchExecute s = raise .fetchOutOfRange s.pc.toNat s) ∨
    (∃ w, s.fetch = some w ∧ decode w = .error (.illegal w) ∧
      fetchExecute s = raise .illegalInstruction w.toNat s) ∨
    (∃ i, Fetches s i ∧ fetchExecute s = exec i s) := by
  unfold fetchExecute
  cases hf : s.fetch with
  | none => exact .inl ⟨State.fetch_none.1 hf, rfl⟩
  | some w =>
    cases hd : decode w with
    | error e =>
      obtain rfl := decode_error hd
      exact .inr (.inl ⟨w, rfl, hd, by simp [hd]⟩)
    | ok i => exact .inr (.inr ⟨i, ⟨w, hf, hd⟩, by simp [hd]⟩)

/-- When the word at `pc` decodes to `i`, fetch-execute is `exec i`. -/
theorem fetchExecute_of_fetches {s : State} {i : Instr} (h : Fetches s i) : fetchExecute s = exec i s := by
  obtain ⟨w, hw, hd⟩ := h
  simp [fetchExecute, hw, hd]

/-- A Cycle with no fault latched is fetch-execute with the Cycle's draw, and its result recorded. -/
theorem cycle_of_noFault {s : State} (h : s.fault = none) (r : Byte) :
    cycle r s = returnCycle (fetchExecute { s with rnd := r }) := by
  unfold cycle
  rw [h]

/-- A Cycle with a fault latched returns that fault again and changes nothing else. -/
theorem cycle_of_latched {s : State} {rec : FaultRecord} (h : s.fault = some rec) (r : Byte) :
    cycle r s = .next { s with out := some (.fault rec) } := by
  simp only [cycle, h, returnCycle, State.cycleResult]

/-- A Cycle that answers a next state: a latched fault returned again, or, with no fault latched, the state fetch-execute
leaves, with the Cycle's result recorded. -/
theorem cycle_next {r : Byte} {s t : State} (h : cycle r s = .next t) :
    (∃ rec, s.fault = some rec ∧ t = { s with out := some (.fault rec) }) ∨
    (s.fault = none ∧ ∃ u, fetchExecute { s with rnd := r } = .next u ∧ t = { u with out := some u.cycleResult }) := by
  rcases Option.eq_none_or_eq_some s.fault with hf | ⟨rec, hf⟩
  · rw [cycle_of_noFault hf] at h
    refine .inr ⟨hf, ?_⟩
    cases hu : fetchExecute { s with rnd := r } with
    | next u =>
      rw [hu] at h
      cases h
      exact ⟨u, rfl, rfl⟩
    | fault f => rw [hu] at h; cases h
    | refused f => rw [hu] at h; cases h
  · rw [cycle_of_latched hf] at h
    cases h
    exact .inl ⟨rec, hf, rfl⟩

/-- The step is the host's oldest scheduled operation. -/
theorem step_cons {s : State} {op : HostOp} {rest : List HostOp} (h : s.inputs = op :: rest) :
    step s = perform op { s with inputs := rest } := by
  simp [step, nextOperation, h]

/-- With nothing scheduled and no fault latched the step is a Cycle with a free draw. -/
theorem step_nil {s : State} (h : s.inputs = []) (hf : s.fault = none) :
    step s = cycle (Config.freeDraw s.draws) { s with draws := s.draws + 1 } := by
  simp [step, nextOperation, h, hf]

/-- With nothing scheduled and a fault latched the step is that fault. -/
theorem step_nil_latched {s : State} {rec : FaultRecord} (h : s.inputs = []) (hf : s.fault = some rec) :
    step s = .fault (.latched rec) := by
  simp [step, nextOperation, h, hf]

/-- A scheduled Cycle with a fault latched is taken from the queue, returns the fault again and changes nothing else. -/
theorem step_cycle_latched {s : State} {rec : FaultRecord} {r : Byte} {rest : List HostOp} (h : s.inputs = .cycle r :: rest)
    (hf : s.fault = some rec) : step s = .next { s with inputs := rest, out := some (.fault rec) } :=
  (step_cons h).trans (cycle_of_latched (s := { s with inputs := rest }) hf r)

/-- When the next operation is a Cycle and no fault is latched the step is that Cycle, on a state that differs only in the
model's own fields. -/
theorem step_of_nextIsCycle {s : State} (h : NextIsCycle s) (hf : s.fault = none) :
    ∃ r d rest, step s = cycle r { s with draws := d, inputs := rest } := by
  rcases h with h | ⟨r, rest, h⟩
  · exact ⟨_, s.draws + 1, [], by rw [step_nil h hf, h]⟩
  · exact ⟨r, s.draws, rest, step_cons h⟩

/-- What a Cycle can do as a step that answers a next state: return a latched fault again and change nothing else, or
fetch-execute, on a state that differs only in the model's own fields. -/
theorem step_nextIsCycle {s t : State} (hc : NextIsCycle s) (h : step s = .next t) :
    (∃ rec q rest, s.fault = some rec ∧ s.inputs = .cycle q :: rest ∧ t = { s with inputs := rest, out := some (.fault rec) }) ∨
    (s.fault = none ∧ ∃ q d u, fetchExecute { s with draws := d, inputs := s.inputs.tail, rnd := q } = .next u ∧
      t = { u with out := some u.cycleResult }) := by
  rcases Option.eq_none_or_eq_some s.fault with hf | ⟨rec, hf⟩
  · refine .inr ⟨hf, ?_⟩
    rcases hc with hi | ⟨q, rest, hi⟩
    · rw [step_nil hi hf] at h
      rcases cycle_next h with ⟨rec, hr, -⟩ | ⟨-, u, hu, ht⟩
      · cases hf.symm.trans hr
      · exact ⟨_, _, u, by rw [hi] at hu ⊢; exact hu, ht⟩
    · rw [step_cons hi] at h
      rcases cycle_next h with ⟨rec, hr, -⟩ | ⟨-, u, hu, ht⟩
      · cases hf.symm.trans hr
      · exact ⟨q, s.draws, u, by rw [hi]; exact hu, ht⟩
  · rcases hc with hi | ⟨q, rest, hi⟩
    · rw [step_nil_latched hi hf] at h
      cases h
    · rw [step_cycle_latched hi hf] at h
      cases h
      exact .inl ⟨rec, q, rest, hf, hi, rfl⟩

/-- Every step is a Cycle or one of the host's other operations. -/
theorem step_cases (s : State) :
    NextIsCycle s ∨ ∃ rest, (s.inputs = .powerOn :: rest ∧ step s = .next (powerOn { s with inputs := rest })) ∨
      (∃ src, s.inputs = .load src :: rest ∧ step s = .next (load src { s with inputs := rest })) ∨
      (∃ k, s.inputs = .setKeys k :: rest ∧ step s = .next (setKeys k { s with inputs := rest })) ∨
      (s.inputs = .tick :: rest ∧ step s = .next (tick { s with inputs := rest })) ∨
      (s.inputs = .observe :: rest ∧ step s = .next (observe { s with inputs := rest })) := by
  cases h : s.inputs with
  | nil => exact .inl (.inl h)
  | cons op rest =>
    cases op with
    | cycle r => exact .inl (.inr ⟨r, rest, h⟩)
    | powerOn => exact .inr ⟨rest, .inl ⟨rfl, step_cons h⟩⟩
    | load src => exact .inr ⟨rest, .inr (.inl ⟨src, rfl, step_cons h⟩)⟩
    | setKeys k => exact .inr ⟨rest, .inr (.inr (.inl ⟨k, rfl, step_cons h⟩))⟩
    | tick => exact .inr ⟨rest, .inr (.inr (.inr (.inl ⟨rfl, step_cons h⟩)))⟩
    | observe => exact .inr ⟨rest, .inr (.inr (.inr (.inr ⟨rfl, step_cons h⟩)))⟩

theorem steps_succ {n : Nat} {s t : State} (h : step s = .next t) : steps (n + 1) s = steps n t := by
  simp [steps, h]

end Sys2Proof.Machine
end

