-- ==== Sys2Proof/Laws/Exec.lean ====
section
/-! SUPPORT. What the meanings with more than one outcome can do when they answer a next state, said once; every other meaning
has one next state, by definition. -/

namespace Sys2Proof.Machine

open Sys2Proof

/-- A range-checked meaning with one next state: that state with every address in range, or the fault. -/
theorem withDataRange_next {n : Nat} {s t body : State} (h : withDataRange n s (.next body) = .next t) :
    (InRange (s.ea 0) n ∧ t = body) ∨ ∃ a, LowestOutOfRange (s.ea 0) n a ∧ TookFault .dataOutOfRange a s t := by
  rcases withDataRange_cases n s (.next body) with ⟨hr, e⟩ | ⟨a, ha, e⟩
  · rw [e] at h; cases h; exact .inl ⟨hr, rfl⟩
  · rw [e] at h; cases h; exact .inr ⟨a, ha, rfl⟩

/-- A key-checked meaning with one next state for each answer: that state for a key number, or the fault. -/
theorem withKey_next {k : Byte} {s t : State} {body : Bool → State} (h : withKey k s (fun down => .next (body down)) = .next t) :
    (k.toNat ≤ 15 ∧ t = body (s.keyDown k.toNat)) ∨ (15 < k.toNat ∧ TookFault .keyOutOfRange k.toNat s t) := by
  rcases Nat.lt_or_ge 15 k.toNat with hk | hk
  · rw [withKey_gt hk] at h; cases h; exact .inr ⟨hk, rfl⟩
  · rw [withKey_le hk] at h; cases h; exact .inl ⟨hk, rfl⟩

theorem execRet_next {s t : State} (h : execRet s = .next t) :
    (s.SP = 0 ∧ TookFault .stackUnderflow 0 s t) ∨ (s.SP ≠ 0 ∧ ∃ ret, s.popSlot = some ret ∧ t = s.popSP.jump ret) := by
  unfold execRet at h
  split at h
  · rename_i h0; cases h; exact .inl ⟨h0, by simp [TookFault, h0]⟩
  · split at h
    · cases h; exact .inr ⟨‹_›, _, ‹_›, rfl⟩
    · cases h

theorem execCall_next {nnn : Addr} {s t : State} (h : execCall nnn s = .next t) :
    (16 ≤ s.SP.toNat ∧ TookFault .stackOverflow s.SP.toNat s t) ∨
      (s.SP.toNat < 16 ∧ t = (s.push (s.pc + 2)).jump (zextAddr nnn)) := by
  unfold execCall at h
  split at h
  · cases h; exact .inl ⟨‹_›, rfl⟩
  · rename_i h0; cases h; exact .inr ⟨Nat.lt_of_not_le h0, rfl⟩

theorem execLdXK_next {x : RegIdx} {s t : State} (h : execLdXK x s = .next t) :
    (s.leastKey = none ∧ t = s) ∨ ∃ k, s.leastKey = some k ∧ t = s.advance.setReg x (BitVec.ofNat 8 k) := by
  unfold execLdXK at h
  split at h
  · rename_i h0; cases h; exact .inl ⟨h0, by simp [State.advance]⟩
  · cases h; exact .inr ⟨_, ‹_›, rfl⟩

end Sys2Proof.Machine
end

