-- ==== Sys2Proof/Laws/PerInstr.lean ====
section
/-! SUPPORT. A statement for every instruction, as syntax: it is well formed, and its word matches the row of the opcode
table it names (30_encoding.md R72). One lemma per constructor. -/

namespace Sys2Proof.Laws

open Sys2Proof

/-! Operands under the masks of the table -/

@[simp] theorem atX_and_F000 (x : RegIdx) : atX x &&& 0xF000#16 = 0 := by
  ext i hi; simp [atX]; interval_cases i <;> simp

@[simp] theorem atX_and_F00F (x : RegIdx) : atX x &&& 0xF00F#16 = 0 := by
  ext i hi; simp [atX]; interval_cases i <;> simp

@[simp] theorem atX_and_F0FF (x : RegIdx) : atX x &&& 0xF0FF#16 = 0 := by
  ext i hi; simp [atX]; interval_cases i <;> simp

@[simp] theorem atY_and_F000 (y : RegIdx) : atY y &&& 0xF000#16 = 0 := by
  ext i hi; simp [atY]; interval_cases i <;> simp

@[simp] theorem atY_and_F00F (y : RegIdx) : atY y &&& 0xF00F#16 = 0 := by
  ext i hi; simp [atY]; interval_cases i <;> simp

@[simp] theorem kk_and_F000 (kk : Byte) : kk.setWidth 16 &&& 0xF000#16 = 0 := by
  ext i hi; simp; interval_cases i <;> simp

@[simp] theorem n_and_F000 (n : Nibble) : n.setWidth 16 &&& 0xF000#16 = 0 := by
  ext i hi; simp; interval_cases i <;> simp

@[simp] theorem nnn_and_F000 (nnn : Addr) : nnn.setWidth 16 &&& 0xF000#16 = 0 := by
  ext i hi; simp; interval_cases i <;> simp

/-- AND over OR, from the right. -/
theorem or_and (a b m : Word) : (a ||| b) &&& m = a &&& m ||| b &&& m := by
  ext i hi; simp [Bool.and_or_distrib_right]

/-! Lines of each format whose operands are field values are well formed -/

theorem wfNone {row : Nat} (h : rowFormat row = some .fNone) : AsmLine.WellFormed ⟨row, []⟩ := by
  simp [AsmLine.WellFormed, AsmLine.check, h, AsmLine.filled, Format.widths, firstUnfit]

theorem wfNnn {row : Nat} (h : rowFormat row = some .fNnn) (ho : rowMayOmitVy row = false) (nnn : Addr) :
    AsmLine.WellFormed ⟨row, [nnn.toNat]⟩ := by
  simpa [AsmLine.WellFormed, AsmLine.check, h, ho, AsmLine.filled, Format.widths, firstUnfit] using nnn.isLt

theorem wfX {row : Nat} (h : rowFormat row = some .fX) (ho : rowMayOmitVy row = false) (x : RegIdx) :
    AsmLine.WellFormed ⟨row, [x.toNat]⟩ := by
  simpa [AsmLine.WellFormed, AsmLine.check, h, ho, AsmLine.filled, Format.widths, firstUnfit] using x.isLt

theorem wfXkk {row : Nat} (h : rowFormat row = some .fXkk) (x : RegIdx) (kk : Byte) :
    AsmLine.WellFormed ⟨row, [x.toNat, kk.toNat]⟩ := by
  have hx := x.isLt
  have hk := kk.isLt
  simp only [AsmLine.WellFormed, AsmLine.check, h, AsmLine.filled, Format.widths, firstUnfit, hx, hk]
  rfl

theorem wfXy {row : Nat} (h : rowFormat row = some .fXy) (x y : RegIdx) :
    AsmLine.WellFormed ⟨row, [x.toNat, y.toNat]⟩ := by
  have hx := x.isLt
  have hy := y.isLt
  simp only [AsmLine.WellFormed, AsmLine.check, h, AsmLine.filled, Format.widths, firstUnfit, hx, hy]
  rfl

theorem wfXyn {row : Nat} (h : rowFormat row = some .fXyn) (x y : RegIdx) (n : Nibble) :
    AsmLine.WellFormed ⟨row, [x.toNat, y.toNat, n.toNat]⟩ := by
  have hx := x.isLt
  have hy := y.isLt
  have hn := n.isLt
  simp only [AsmLine.WellFormed, AsmLine.check, h, AsmLine.filled, Format.widths, firstUnfit, hx, hy, hn]
  rfl

end Sys2Proof.Laws

namespace Sys2Proof.Laws.RowMatch

open Sys2Proof

/-- The row of an instruction, its match and mask, and that the encoded word matches it; and the instruction is well
formed. -/
def Statement (i : Instr) : Prop :=
  i.WellFormed ∧ ∃ r ∈ opcodeTable, r.1 = i.toLine.row ∧ r.matches (encode i) = true

theorem cls : Statement .cls :=
  ⟨wfNone rfl, (1, 0x00E0, 0xFFFF), by decide, rfl, rfl⟩

theorem ret : Statement .ret :=
  ⟨wfNone rfl, (2, 0x00EE, 0xFFFF), by decide, rfl, rfl⟩

theorem jp (nnn : Addr) : Statement (.jp nnn) :=
  ⟨wfNnn rfl rfl nnn, (3, 0x1000, 0xF000), by decide, rfl, by simp [OpcodeRow.matches, encode, or_and]⟩

theorem call (nnn : Addr) : Statement (.call nnn) :=
  ⟨wfNnn rfl rfl nnn, (4, 0x2000, 0xF000), by decide, rfl, by simp [OpcodeRow.matches, encode, or_and]⟩

theorem seImm (x : RegIdx) (kk : Byte) : Statement (.seImm x kk) :=
  ⟨wfXkk rfl x kk, (5, 0x3000, 0xF000), by decide, rfl, by simp [OpcodeRow.matches, encode, or_and]⟩

theorem sneImm (x : RegIdx) (kk : Byte) : Statement (.sneImm x kk) :=
  ⟨wfXkk rfl x kk, (6, 0x4000, 0xF000), by decide, rfl, by simp [OpcodeRow.matches, encode, or_and]⟩

theorem seReg (x : RegIdx) (y : RegIdx) : Statement (.seReg x y) :=
  ⟨wfXy rfl x y, (7, 0x5000, 0xF00F), by decide, rfl, by simp [OpcodeRow.matches, encode, or_and]⟩

theorem sneReg (x : RegIdx) (y : RegIdx) : Statement (.sneReg x y) :=
  ⟨wfXy rfl x y, (8, 0x9000, 0xF00F), by decide, rfl, by simp [OpcodeRow.matches, encode, or_and]⟩

theorem ldImm (x : RegIdx) (kk : Byte) : Statement (.ldImm x kk) :=
  ⟨wfXkk rfl x kk, (9, 0x6000, 0xF000), by decide, rfl, by simp [OpcodeRow.matches, encode, or_and]⟩

theorem addImm (x : RegIdx) (kk : Byte) : Statement (.addImm x kk) :=
  ⟨wfXkk rfl x kk, (10, 0x7000, 0xF000), by decide, rfl, by simp [OpcodeRow.matches, encode, or_and]⟩

theorem ldReg (x : RegIdx) (y : RegIdx) : Statement (.ldReg x y) :=
  ⟨wfXy rfl x y, (11, 0x8000, 0xF00F), by decide, rfl, by simp [OpcodeRow.matches, encode, or_and]⟩

theorem orReg (x : RegIdx) (y : RegIdx) : Statement (.orReg x y) :=
  ⟨wfXy rfl x y, (12, 0x8001, 0xF00F), by decide, rfl, by simp [OpcodeRow.matches, encode, or_and]⟩

theorem andReg (x : RegIdx) (y : RegIdx) : Statement (.andReg x y) :=
  ⟨wfXy rfl x y, (13, 0x8002, 0xF00F), by decide, rfl, by simp [OpcodeRow.matches, encode, or_and]⟩

theorem xorReg (x : RegIdx) (y : RegIdx) : Statement (.xorReg x y) :=
  ⟨wfXy rfl x y, (14, 0x8003, 0xF00F), by decide, rfl, by simp [OpcodeRow.matches, encode, or_and]⟩

theorem addReg (x : RegIdx) (y : RegIdx) : Statement (.addReg x y) :=
  ⟨wfXy rfl x y, (15, 0x8004, 0xF00F), by decide, rfl, by simp [OpcodeRow.matches, encode, or_and]⟩

theorem subReg (x : RegIdx) (y : RegIdx) : Statement (.subReg x y) :=
  ⟨wfXy rfl x y, (16, 0x8005, 0xF00F), by decide, rfl, by simp [OpcodeRow.matches, encode, or_and]⟩

theorem shr (x : RegIdx) (y : RegIdx) : Statement (.shr x y) :=
  ⟨wfXy rfl x y, (17, 0x8006, 0xF00F), by decide, rfl, by simp [OpcodeRow.matches, encode, or_and]⟩

theorem subnReg (x : RegIdx) (y : RegIdx) : Statement (.subnReg x y) :=
  ⟨wfXy rfl x y, (18, 0x8007, 0xF00F), by decide, rfl, by simp [OpcodeRow.matches, encode, or_and]⟩

theorem shl (x : RegIdx) (y : RegIdx) : Statement (.shl x y) :=
  ⟨wfXy rfl x y, (19, 0x800E, 0xF00F), by decide, rfl, by simp [OpcodeRow.matches, encode, or_and]⟩

theorem ldI (nnn : Addr) : Statement (.ldI nnn) :=
  ⟨wfNnn rfl rfl nnn, (20, 0xA000, 0xF000), by decide, rfl, by simp [OpcodeRow.matches, encode, or_and]⟩

theorem jpV0 (nnn : Addr) : Statement (.jpV0 nnn) :=
  ⟨wfNnn rfl rfl nnn, (21, 0xB000, 0xF000), by decide, rfl, by simp [OpcodeRow.matches, encode, or_and]⟩

theorem rnd (x : RegIdx) (kk : Byte) : Statement (.rnd x kk) :=
  ⟨wfXkk rfl x kk, (22, 0xC000, 0xF000), by decide, rfl, by simp [OpcodeRow.matches, encode, or_and]⟩

theorem drw (x : RegIdx) (y : RegIdx) (n : Nibble) : Statement (.drw x y n) :=
  ⟨wfXyn rfl x y n, (23, 0xD000, 0xF000), by decide, rfl, by simp [OpcodeRow.matches, encode, or_and]⟩

theorem skp (x : RegIdx) : Statement (.skp x) :=
  ⟨wfX rfl rfl x, (24, 0xE09E, 0xF0FF), by decide, rfl, by simp [OpcodeRow.matches, encode, or_and]⟩

theorem sknp (x : RegIdx) : Statement (.sknp x) :=
  ⟨wfX rfl rfl x, (25, 0xE0A1, 0xF0FF), by decide, rfl, by simp [OpcodeRow.matches, encode, or_and]⟩

theorem ldXDt (x : RegIdx) : Statement (.ldXDt x) :=
  ⟨wfX rfl rfl x, (26, 0xF007, 0xF0FF), by decide, rfl, by simp [OpcodeRow.matches, encode, or_and]⟩

theorem ldDtX (x : RegIdx) : Statement (.ldDtX x) :=
  ⟨wfX rfl rfl x, (27, 0xF015, 0xF0FF), by decide, rfl, by simp [OpcodeRow.matches, encode, or_and]⟩

theorem ldStX (x : RegIdx) : Statement (.ldStX x) :=
  ⟨wfX rfl rfl x, (28, 0xF018, 0xF0FF), by decide, rfl, by simp [OpcodeRow.matches, encode, or_and]⟩

theorem ldXK (x : RegIdx) : Statement (.ldXK x) :=
  ⟨wfX rfl rfl x, (29, 0xF00A, 0xF0FF), by decide, rfl, by simp [OpcodeRow.matches, encode, or_and]⟩

theorem addIX (x : RegIdx) : Statement (.addIX x) :=
  ⟨wfX rfl rfl x, (30, 0xF01E, 0xF0FF), by decide, rfl, by simp [OpcodeRow.matches, encode, or_and]⟩

theorem ldFX (x : RegIdx) : Statement (.ldFX x) :=
  ⟨wfX rfl rfl x, (31, 0xF029, 0xF0FF), by decide, rfl, by simp [OpcodeRow.matches, encode, or_and]⟩

theorem ldBX (x : RegIdx) : Statement (.ldBX x) :=
  ⟨wfX rfl rfl x, (32, 0xF033, 0xF0FF), by decide, rfl, by simp [OpcodeRow.matches, encode, or_and]⟩

theorem ldMemX (x : RegIdx) : Statement (.ldMemX x) :=
  ⟨wfX rfl rfl x, (33, 0xF055, 0xF0FF), by decide, rfl, by simp [OpcodeRow.matches, encode, or_and]⟩

theorem ldXMem (x : RegIdx) : Statement (.ldXMem x) :=
  ⟨wfX rfl rfl x, (34, 0xF065, 0xF0FF), by decide, rfl, by simp [OpcodeRow.matches, encode, or_and]⟩

end Sys2Proof.Laws.RowMatch
end

