-- ==== Sys2Proof/Tests/Slice0.lean ====
section
/-! SUPPORT. The model's own tests. Expected results come from spec/: encodings from 30_encoding.md and the Encoding line of
each instruction's rule, effects from the vectors of 95_test_vectors.md, named in each comment. At the end stands a witness for
the hypotheses of each obligation that has any. -/

namespace Sys2Proof.Tests

open Sys2Proof Sys2Proof.Machine

/-! ### Well-formed lines: one ill-formed line for each check (30_encoding.md R77, R79) -/

theorem test_wf_row_zero : AsmLine.check ⟨0, []⟩ = some .noSuchRow := by decide

theorem test_wf_row_above : AsmLine.check ⟨35, [1]⟩ = some .noSuchRow := by decide

theorem test_wf_too_few : AsmLine.check ⟨7, [1]⟩ = some .wrongOperandCount := by decide

theorem test_wf_too_many : AsmLine.check ⟨1, [0]⟩ = some .wrongOperandCount := by decide

theorem test_wf_register : AsmLine.check ⟨24, [16]⟩ = some (.doesNotFit 16 4) := by decide

theorem test_wf_second_register : AsmLine.check ⟨11, [15, 16]⟩ = some (.doesNotFit 16 4) := by decide

theorem test_wf_byte : AsmLine.check ⟨9, [15, 256]⟩ = some (.doesNotFit 256 8) := by decide

theorem test_wf_address : AsmLine.check ⟨3, [4096]⟩ = some (.doesNotFit 4096 12) := by decide

theorem test_wf_nibble : AsmLine.check ⟨23, [0, 0, 16]⟩ = some (.doesNotFit 16 4) := by decide

/-- An omitted `Vy` is filled in for 8xy6 only, with 0 (30_encoding.md R77). -/
theorem test_wf_omitted_vy : AsmLine.assemble ⟨17, [1]⟩ = .ok 0x8106 ∧ AsmLine.check ⟨16, [1]⟩ = some .wrongOperandCount := by
  decide

/-- 95_test_vectors.md P1: `LD V0, 0x05` and `LD V1, V0`. -/
theorem test_assemble_words : AsmLine.assemble ⟨9, [0, 5]⟩ = .ok 0x6005 ∧ AsmLine.assemble ⟨11, [1, 0]⟩ = .ok 0x8100 := by
  decide

/-! ### Decoding: every constructor, from a word written out bit by bit

Field values: `x` = 1010, `y` = 0101, `n` = 1001, `kk` = 00111100, `nnn` = 101010111100. -/

theorem test_decode_display :
    [0b0000000011100000, 0b1101101001011001].map (decodeTableWord 16) = [some .cls, some (.drw 0xA 5 9)] := by decide

theorem test_decode_jumps :
    [0b0000000011101110, 0b0001101010111100, 0b0010101010111100, 0b1011101010111100].map (decodeTableWord 16) =
      [some .ret, some (.jp 0xABC), some (.call 0xABC), some (.jpV0 0xABC)] := by decide

theorem test_decode_skips :
    [0b0011101000111100, 0b0100101000111100, 0b0101101001010000, 0b1001101001010000].map (decodeTableWord 16) =
      [some (.seImm 0xA 0x3C), some (.sneImm 0xA 0x3C), some (.seReg 0xA 5), some (.sneReg 0xA 5)] := by decide

theorem test_decode_immediates :
    [0b0110101000111100, 0b0111101000111100, 0b1100101000111100].map (decodeTableWord 16) =
      [some (.ldImm 0xA 0x3C), some (.addImm 0xA 0x3C), some (.rnd 0xA 0x3C)] := by decide

theorem test_decode_logic :
    [0b1000101001010000, 0b1000101001010001, 0b1000101001010010, 0b1000101001010011].map (decodeTableWord 16) =
      [some (.ldReg 0xA 5), some (.orReg 0xA 5), some (.andReg 0xA 5), some (.xorReg 0xA 5)] := by decide

theorem test_decode_flags :
    [0b1000101001010100, 0b1000101001010101, 0b1000101001010110, 0b1000101001010111, 0b1000101001011110].map
        (decodeTableWord 16) =
      [some (.addReg 0xA 5), some (.subReg 0xA 5), some (.shr 0xA 5), some (.subnReg 0xA 5), some (.shl 0xA 5)] := by decide

theorem test_decode_memory :
    [0b1010101010111100, 0b1111101000011110, 0b1111101000101001, 0b1111101000110011, 0b1111101001010101,
      0b1111101001100101].map (decodeTableWord 16) =
      [some (.ldI 0xABC), some (.addIX 0xA), some (.ldFX 0xA), some (.ldBX 0xA), some (.ldMemX 0xA), some (.ldXMem 0xA)] := by
  decide

theorem test_decode_keys_timers :
    [0b1110101010011110, 0b1110101010100001, 0b1111101000000111, 0b1111101000001010, 0b1111101000010101,
      0b1111101000011000].map (decodeTableWord 16) =
      [some (.skp 0xA), some (.sknp 0xA), some (.ldXDt 0xA), some (.ldXK 0xA), some (.ldDtX 0xA), some (.ldStX 0xA)] := by
  decide

/-- 95_test_vectors.md V1 to V10: the illegal words. -/
theorem test_decode_illegal :
    [0x0000, 0x0123, 0x01E0, 0x5121, 0x8008, 0x800F, 0x9011, 0xE09F, 0xF000, 0xF0FF].map (decodeTableWord 16) =
      List.replicate 10 none := by decide

theorem test_decode_truncated : decodeBytes [0x60] = .error .truncated := by decide

/-! ### One Cycle on a small state -/

/-- The start state of the vectors: reset with `pc` at `a` and some registers set. -/
def start (a : Word) (regs : List (RegIdx × Byte)) : State :=
  regs.foldl (fun s p => s.setReg p.1 p.2) { State.reset with pc := a }

/-- One Cycle with a given draw on `s` with the word `w` at its `pc`; what `f` shows of the next state. -/
def afterDraw {α : Type} (draw : Byte) (w : Nat) (s : State) (f : State → α) : Option α :=
  match step { s.withFetchWord 16 w with inputs := [.cycle draw] } with
  | .next t => some (f t)
  | _ => none

/-- One Cycle with the draw 0. -/
def after {α : Type} (w : Nat) (s : State) (f : State → α) : Option α := afterDraw 0 w s f

/-- The pixels of the columns listed, in one row. -/
def pixels (s : State) (r : Fin 32) (cs : List (Fin 64)) : List Bool := cs.map (s.disp.pixel r)

/-- V20. -/
theorem test_cls : after 0x00E0 { start 0x200 [] with disp := Display.off.setPixel 31 63 true }
    (fun t => (pixels t 31 [63], t.pc)) = some ([false], 0x202) := by decide

/-- V23: the collision in row 0 survives the clean row 1. -/
theorem test_drw_collision : after 0xD012
    { (start 0x200 []).writeBytes 0x300 [0x80, 0x80] with I := 0x300, disp := Display.off.setPixel 0 0 true }
    (fun t => (pixels t 0 [0], pixels t 1 [0], t.reg VF)) = some ([false], [true], 1) := by decide

/-- V28 and S4: the sprite wraps to columns 0 to 3, and a row below the last to row 0. -/
theorem test_drw_wraps : after 0xD013 { (start 0x200 [(0, 60), (1, 30)]).writeBytes 0x300 [0xFF, 0xFF, 0x08] with I := 0x300 }
    (fun t => (pixels t 31 [59, 60, 63, 0, 3, 4], pixels t 0 [0, 63], t.reg VF)) =
      some ([false, true, true, true, true, false], [true, false], 0) := by decide

/-- V30. -/
theorem test_ret : after 0x00EE { start 0x200 [] with SP := 1, stack := State.reset.stack.set 0 0x204 }
    (fun t => (t.SP, t.pc, t.stack.get 0)) = some (0, 0x204, 0x204) := by decide

/-- V31 and S7. -/
theorem test_ret_underflow : after 0x00EE (start 0x200 []) (fun t => (t.fault, t.pc, t.SP)) =
    some (some ⟨.stackUnderflow, 0x200, 0⟩, 0x200, 0) := by decide

/-- V32. -/
theorem test_jp : after 0x1234 (start 0x200 []) (fun t => t.pc) = some 0x234 := by decide

/-- V37. -/
theorem test_call : after 0x2000 (start 0xFFE []) (fun t => (t.stack.get 0, t.SP, t.pc)) = some (0x1000, 1, 0) := by decide

/-- V36. -/
theorem test_call_overflow : after 0x2300 { start 0x200 [] with SP := 16 } (fun t => (t.fault, t.pc, t.SP)) =
    some (some ⟨.stackOverflow, 0x200, 16⟩, 0x200, 16) := by decide

/-- V38, V39. -/
theorem test_se_imm : after 0x3205 (start 0x204 [(2, 5)]) (fun t => t.pc) = some 0x208 ∧
    after 0x3206 (start 0x204 [(2, 5)]) (fun t => t.pc) = some 0x206 := by decide

/-- V40, V41. -/
theorem test_sne_imm : after 0x4205 (start 0x204 [(2, 5)]) (fun t => t.pc) = some 0x206 ∧
    after 0x4206 (start 0x204 [(2, 5)]) (fun t => t.pc) = some 0x208 := by decide

/-- V42, V43. -/
theorem test_se_reg : after 0x5010 (start 0x200 [(0, 7), (1, 7)]) (fun t => t.pc) = some 0x204 ∧
    after 0x5010 (start 0x200 [(0, 7), (1, 8)]) (fun t => t.pc) = some 0x202 := by decide

/-- V45, V46. -/
theorem test_sne_reg : after 0x9010 (start 0x200 [(0, 7), (1, 8)]) (fun t => t.pc) = some 0x204 ∧
    after 0x9330 (start 0x200 []) (fun t => t.pc) = some 0x202 := by decide

/-- V48. -/
theorem test_jp_v0 : after 0xBFFF (start 0x200 [(0, 0xFF)]) (fun t => t.pc) = some 0x10FE := by decide

/-- V50. -/
theorem test_ld_imm : after 0x6AFF (start 0x200 []) (fun t => (t.reg 0xA, t.pc)) = some (0xFF, 0x202) := by decide

/-- V51: no flag. -/
theorem test_add_imm : after 0x7AFF (start 0x200 [(0xA, 1)]) (fun t => (t.reg 0xA, t.reg VF)) = some (0, 0) := by decide

/-- V52: the sum, not a carry. -/
theorem test_add_imm_vf : after 0x7F01 (start 0x200 [(0xF, 0xFF)]) (fun t => t.reg VF) = some 0 := by decide

/-- V53. -/
theorem test_ld_reg : after 0x8120 (start 0x200 [(2, 9)]) (fun t => t.reg 1) = some 9 := by decide

/-- V54. -/
theorem test_or : after 0x8121 (start 0x200 [(1, 0xF0), (2, 0x0F), (15, 7)]) (fun t => (t.reg 1, t.reg VF)) =
    some (0xFF, 7) := by decide

/-- V55. -/
theorem test_and : after 0x8122 (start 0x200 [(1, 0xF0), (2, 0x3C), (15, 7)]) (fun t => (t.reg 1, t.reg VF)) =
    some (0x30, 7) := by decide

/-- V56. -/
theorem test_xor : after 0x8123 (start 0x200 [(1, 0xF0), (2, 0x3C), (15, 7)]) (fun t => (t.reg 1, t.reg VF)) =
    some (0xCC, 7) := by decide

/-- V57, V58 and S9: the carry is of a sum above 255. -/
theorem test_add_carry : after 0x8124 (start 0x200 [(1, 0xFF), (2, 1)]) (fun t => (t.reg 1, t.reg VF)) = some (0, 1) ∧
    after 0x8124 (start 0x200 [(1, 0x7F), (2, 0x80)]) (fun t => (t.reg 1, t.reg VF)) = some (0xFF, 0) := by decide

/-- V59, V60: VF as source and as destination. -/
theorem test_add_vf : after 0x81F4 (start 0x200 [(1, 0xFF), (15, 2)]) (fun t => (t.reg 1, t.reg VF)) = some (1, 1) ∧
    after 0x8F14 (start 0x200 [(1, 1), (15, 0xFF)]) (fun t => t.reg VF) = some 0 := by decide

/-- V63, V64. -/
theorem test_sub : after 0x8125 (start 0x200 [(1, 3), (2, 5)]) (fun t => (t.reg 1, t.reg VF)) = some (0xFE, 0) ∧
    after 0x8125 (start 0x200 [(1, 5), (2, 5)]) (fun t => (t.reg 1, t.reg VF)) = some (0, 1) := by decide

/-- V66. -/
theorem test_sub_vf : after 0x8F15 (start 0x200 [(1, 1)]) (fun t => t.reg VF) = some 0xFF := by decide

/-- V69: Vy is not read. -/
theorem test_shr : after 0x8126 (start 0x200 [(1, 4), (2, 0xFF)]) (fun t => (t.reg 1, t.reg VF)) = some (2, 0) := by decide

/-- S2: VF = 03 shifted right. -/
theorem test_shr_vf : after 0x8F06 (start 0x200 [(15, 3)]) (fun t => t.reg VF) = some 1 := by decide

/-- V70, V71. -/
theorem test_subn : after 0x8127 (start 0x200 [(1, 3), (2, 5)]) (fun t => (t.reg 1, t.reg VF)) = some (2, 1) ∧
    after 0x8127 (start 0x200 [(1, 5), (2, 3)]) (fun t => (t.reg 1, t.reg VF)) = some (0xFE, 0) := by decide

/-- V72. -/
theorem test_subn_vf : after 0x8F17 (start 0x200 [(1, 5), (15, 3)]) (fun t => t.reg VF) = some 2 := by decide

/-- V73, V74. -/
theorem test_shl : after 0x812E (start 0x200 [(1, 0x81)]) (fun t => (t.reg 1, t.reg VF)) = some (2, 1) ∧
    after 0x812E (start 0x200 [(1, 0x40)]) (fun t => (t.reg 1, t.reg VF)) = some (0x80, 0) := by decide

/-- V75. -/
theorem test_shl_vf : after 0x8F0E (start 0x200 [(15, 0x81)]) (fun t => t.reg VF) = some 2 := by decide

/-- V61, V67: the other order. -/
theorem test_other_order :
    (writeFlagResult .resultThenFlag 15 (addFlag 0xFF 1).1 (addFlag 0xFF 1).2 (start 0x200 [])).reg VF = 1 ∧
    (writeFlagResult .resultThenFlag 15 (subFlag 0 1).1 (subFlag 0 1).2 (start 0x200 [])).reg VF = 0 := by decide

/-- V76. -/
theorem test_rnd : afterDraw 0xAB 0xC30F (start 0x200 []) (fun t => t.reg 3) = some 0x0B := by decide

/-- V78. -/
theorem test_rnd_all : afterDraw 0x5A 0xC3FF (start 0x200 []) (fun t => t.reg 3) = some 0x5A := by decide

/-- V81. -/
theorem test_ld_i : after 0xAFFF (start 0x200 []) (fun t => t.I) = some 0xFFF := by decide

/-- V84, V85. -/
theorem test_add_i : after 0xF21E { start 0x200 [(2, 1)] with I := 0xFFF } (fun t => t.I) = some 0x1000 ∧
    after 0xF21E { start 0x200 [(2, 0x20), (15, 9)] with I := 0xFFF0 } (fun t => (t.I, t.reg VF)) = some (0x10, 9) := by decide

/-- V86, V89. -/
theorem test_ld_f : after 0xF029 (start 0x200 [(0, 0x0A)]) (fun t => t.I) = some 0x32 ∧
    after 0xF029 (start 0x200 [(0, 0xFF)]) (fun t => t.I) = some 0x4FB := by decide

/-- V90. -/
theorem test_bcd : after 0xFA33 { start 0x200 [(0xA, 0x9C)] with I := 0x300 } (fun t => t.readBytes 0x300 3) =
    some [1, 5, 6] := by decide

/-- V94. -/
theorem test_bcd_out : after 0xF033 { start 0x200 [(0, 7)] with I := 0xFFE } (fun t => (t.fault, t.readByte 0xFFE)) =
    some (some ⟨.dataOutOfRange, 0x200, 0x1000⟩, 0) := by decide

/-- V95. -/
theorem test_store : after 0xF255 { start 0x200 [(0, 1), (1, 2), (2, 3), (3, 4)] with I := 0x400 }
    (fun t => (t.readBytes 0x400 4, t.I)) = some ([1, 2, 3, 0], 0x400) := by decide

/-- V97. -/
theorem test_store_out : after 0xF155 { start 0x200 [(0, 0xAA)] with I := 0xFFF } (fun t => (t.fault, t.readByte 0xFFF)) =
    some (some ⟨.dataOutOfRange, 0x200, 0x1000⟩, 0) := by decide

/-- V99, with V3 kept. -/
theorem test_load : after 0xF265 { (start 0x200 [(3, 9)]).writeBytes 0x300 [1, 5, 6] with I := 0x300 }
    (fun t => ([t.reg 0, t.reg 1, t.reg 2, t.reg 3], t.I)) = some ([1, 5, 6, 9], 0x300) := by decide

/-- V101. -/
theorem test_load_out : after 0xF165 { start 0x200 [(0, 7)] with I := 0xFFF } (fun t => (t.fault, t.reg 0)) =
    some (some ⟨.dataOutOfRange, 0x200, 0x1000⟩, 7) := by decide

/-- V110, V111. -/
theorem test_skp : after 0xE19E { start 0x300 [(1, 7)] with keys := 0x80 } (fun t => t.pc) = some 0x304 ∧
    after 0xE19E (start 0x300 [(1, 7)]) (fun t => t.pc) = some 0x302 := by decide

/-- V114. -/
theorem test_skp_out : after 0xE19E (start 0x200 [(1, 0x10)]) (fun t => t.fault) =
    some (some ⟨.keyOutOfRange, 0x200, 0x10⟩) := by decide

/-- V112, V113. -/
theorem test_sknp : after 0xE1A1 (start 0x300 [(1, 7)]) (fun t => t.pc) = some 0x304 ∧
    after 0xE1A1 { start 0x300 [(1, 7)] with keys := 0x80 } (fun t => t.pc) = some 0x302 := by decide

/-- V115. -/
theorem test_sknp_out : after 0xE1A1 (start 0x200 [(1, 0xFF)]) (fun t => t.fault) =
    some (some ⟨.keyOutOfRange, 0x200, 0xFF⟩) := by decide

/-- V116. -/
theorem test_ld_dt : after 0xF307 { start 0x200 [] with DT := 0x3C } (fun t => (t.reg 3, t.DT)) = some (0x3C, 0x3C) := by decide

/-- V117. -/
theorem test_key_wait : after 0xF00A (start 0x200 [(0, 9)]) (fun t => (t.reg 0, t.pc)) = some (9, 0x200) := by decide

/-- V118: keys 3 and 9. -/
theorem test_key_taken : after 0xF00A { start 0x200 [] with keys := 0x208 } (fun t => (t.reg 0, t.pc)) = some (3, 0x202) := by
  decide

/-- V120. -/
theorem test_set_dt : after 0xF015 (start 0x200 [(0, 0x3C)]) (fun t => (t.DT, t.ST)) = some (0x3C, 0) := by decide

/-- V121. -/
theorem test_set_st : after 0xF418 (start 0x200 [(4, 2)]) (fun t => (t.ST, t.DT)) = some (2, 0) := by decide

/-! ### The Cycle, the latch and the host's operations -/

/-- One operation of the host on `s`; what `f` shows of the next state. -/
def afterOp {α : Type} (op : HostOp) (s : State) (f : State → α) : Option α :=
  match step { s with inputs := [op] } with
  | .next t => some (f t)
  | _ => none

/-- V16: PowerOn with no Load; the first two bytes of the default font are no instruction. -/
theorem test_no_load : afterOp (.cycle 0) State.reset (fun t => (t.fault, t.pc)) =
    some (some ⟨.illegalInstruction, 0, 0xF090⟩, 0) := by decide

/-- V12. -/
theorem test_fetch_out : afterOp (.cycle 0) (start 0x1000 []) (fun t => (t.fault, t.pc, t.out)) =
    some (some ⟨.fetchOutOfRange, 0x1000, 0x1000⟩, 0x1000, some (.fault ⟨.fetchOutOfRange, 0x1000, 0x1000⟩)) := by decide

/-- V15: an odd address. -/
theorem test_odd_fetch : after 0x6001 (start 0x201 []) (fun t => (t.reg 0, t.pc, t.out)) = some (1, 0x203, some .ok) := by decide

/-- V17: the latched fault again, from a Cycle scheduled and with nothing scheduled. -/
theorem test_latched :
    afterOp (.cycle 0) { start 0x200 [] with fault := some ⟨.stackUnderflow, 0x200, 0⟩ }
      (fun t => (t.out, t.pc, t.fault)) =
        some (some (.fault ⟨.stackUnderflow, 0x200, 0⟩), 0x200, some ⟨.stackUnderflow, 0x200, 0⟩) ∧
    (match step { start 0x200 [] with fault := some ⟨.stackUnderflow, 0x200, 0⟩ } with
      | .fault f => some f
      | _ => none) = some (.latched ⟨.stackUnderflow, 0x200, 0⟩) := by decide

/-- P6, steps 3 to 5: after a Cycle with the fault latched a Tick still counts and a Load of `00 EE` recovers. -/
theorem test_latched_goes_on :
    (match steps 3 { start 0x200 [] with
        SP := 16, DT := 2, fault := some ⟨.stackOverflow, 0x200, 16⟩, inputs := [.cycle 0, .tick, .load (.bytes [0, 0xEE])] } with
      | .next t => some (t.fault, t.DT, t.SP, t.readByte 0x201)
      | _ => none) = some (none, 1, 16, 0xEE) := by decide

/-- V130 to V132, V134. -/
theorem test_tick :
    afterOp .tick { State.reset with DT := 1, ST := 0xFF } (fun t => (t.DT, t.ST)) = some (0, 0xFE) ∧
    afterOp .tick { State.reset with DT := 2, fault := some ⟨.stackUnderflow, 0, 0⟩ } (fun t => (t.DT, t.ST, t.faultCode)) =
      some (1, 0, 3) := by decide

/-- 60_exceptions.md R150. -/
theorem test_set_keys : afterOp (.setKeys 0x8001) State.reset (fun t => (t.keyDown 0, t.keyDown 1, t.keyDown 15)) =
    some (true, false, true) := by decide

/-- V143, V144. -/
theorem test_load_image :
    afterOp (.load (.bytes [0x33, 0x33])) ((start 0x300 []).writeBytes 0x200 [0x11, 0x11, 0x22, 0x22])
      (fun t => (t.readBytes 0x200 4, t.pc, t.out)) = some ([0x33, 0x33, 0x22, 0x22], 0x200, some (.load .loadOk)) ∧
    afterOp (.load (.bytes [0, 0xEE])) { start 0x200 [] with SP := 16, DT := 2, fault := some ⟨.stackOverflow, 0x200, 16⟩ }
      (fun t => (t.pc, t.fault, t.SP, t.DT)) = some (0x200, none, 16, 2) := by decide

/-- V142 and S6: 3584 bytes are too many. -/
theorem test_load_too_large (image : List Byte) (h : image.length = 3584) :
    (load (.bytes image) (start 0x300 [])).out = some (.load (.romTooLarge 3584)) ∧
    (load (.bytes image) (start 0x300 [])).pc = 0x300 := by
  simp [load, Config.loadLimit, h, start]

/-- V145. -/
theorem test_load_failed : afterOp (.load (.readFailed 2)) (start 0x300 []) (fun t => (t.out, t.pc)) =
    some (some (.load (.ioError 2)), 0x300) := by decide

/-- V146. -/
theorem test_power_on : afterOp .powerOn { start 0x300 [(4, 7)] with fault := some ⟨.stackUnderflow, 0x300, 0⟩ }
    (fun t => (t.pc, t.reg 4, t.fault, t.readBytes 0 3, t.readByte 0x200)) =
      some (0, 0, none, [0xF0, 0x90, 0x90], 0) := by decide

/-! ### Witnesses: a concrete state and operands that meet the hypotheses of each obligation, at the ends of their ranges -/

theorem test_witness_DecodeOfEncode : (Instr.drw 15 15 15).WellFormed ∧ (Instr.drw 0 0 0).WellFormed ∧
    (Instr.jp 0xFFF).WellFormed ∧ (Instr.ldImm 15 0xFF).WellFormed := by decide

theorem test_witness_EncodeOfDecode : decode 0xFFFF = .error (.illegal 0xFFFF) ∧ decode 0xDFFF = .ok (.drw 15 15 15) := by
  decide

theorem test_witness_EveryWord : decode 0x9FF0 = .ok (.sneReg 15 15) ∧ decode 0x9FF1 = .error (.illegal 0x9FF1) ∧
    (8, 0x9000, 0xF00F) ∈ opcodeTable ∧ OpcodeRow.matches (8, 0x9000, 0xF00F) 0x9FF0 = true := by decide

theorem test_witness_IllegalWords :
    [0x00DF, 0x00E1, 0x0FFF, 0x5001, 0x8008, 0x800D, 0x800F, 0x9FFF, 0xE09D, 0xE0A2, 0xF006, 0xFF66].map
        (fun w : Word => decide (decode w = .error (.illegal w))) = List.replicate 12 true ∧
      decode 0x800E = .ok (.shl 0 0) := by decide

theorem test_witness_Assembling : AsmLine.WellFormed ⟨23, [15, 15, 15]⟩ ∧ AsmLine.WellFormed ⟨19, [0]⟩ ∧
    ¬AsmLine.WellFormed ⟨23, [15, 15, 16]⟩ := by decide

/-- A next state with a scheduled Cycle and with none, and a stop. -/
theorem test_witness_StepRuns : State.NoFault ((start 0xFFE []).withFetchWord 16 0x00EE) ∧ Instr.ret.WellFormed ∧
    ((start 0xFFE []).withFetchWord 16 0x00EE).pc.toNat ≤ 0xFFE ∧
    decodeBytes [((start 0xFFE []).withFetchWord 16 0x00EE).readByte 0xFFE,
      ((start 0xFFE []).withFetchWord 16 0x00EE).readByte 0xFFF] = .ok (.ret, []) ∧
    ((start 0xFFE []).withFetchWord 16 0x00EE).inputs = [] ∧
    ({ start 0xFFE [] with inputs := [.cycle 7, .tick] }).inputs = .cycle 7 :: [.tick] ∧
    (∃ t, exec .ret (start 0xFFE []) = .next t) ∧ exec .ret { start 0xFFE [] with SP := 17 } = .fault (.noStackSlot 17) :=
  ⟨rfl, by decide, by decide, by decide, rfl, rfl, ⟨_, rfl⟩, rfl⟩

theorem test_witness_Fetch : (start 0xFFE []).pc.toNat ≤ 0xFFE ∧ 0xFFE < (start 0xFFF []).pc.toNat := by decide

theorem test_witness_FetchAbove : (start 0xFFF []).NoFault ∧ NextIsCycle (start 0xFFF []) ∧
    NextIsCycle { start 0xFFF [] with inputs := [.cycle 0] } ∧ 0xFFE < (start 0xFFF []).pc.toNat :=
  ⟨rfl, .inl rfl, .inr ⟨0, [], rfl⟩, by decide⟩

theorem test_witness_IllegalWord : State.reset.NoFault ∧ NextIsCycle State.reset ∧ State.reset.fetch = some 0xF090 ∧
    decode 0xF090 = .error (.illegal 0xF090) := ⟨rfl, .inl rfl, by decide, by decide⟩

theorem test_witness_FaultsArePrecise : State.reset.NoFault ∧ NextIsCycle State.reset ∧
    ∃ t, step State.reset = .next t ∧ t.fault = some ⟨.illegalInstruction, 0, 0xF090⟩ := ⟨rfl, .inl rfl, _, rfl, rfl⟩

/-- Every cause an instruction can raise, at the end of its range. -/
theorem test_witness_EachCause :
    (∃ t, exec .ret (start 0x200 []) = .next t ∧ t.fault = some ⟨.stackUnderflow, 0x200, 0⟩) ∧
    (∃ t, exec (.call 0) { start 0x200 [] with SP := 16 } = .next t ∧ t.fault = some ⟨.stackOverflow, 0x200, 16⟩) ∧
    (∃ t, exec (.drw 0 0 1) { start 0x200 [] with I := 0x1000 } = .next t ∧ t.fault = some ⟨.dataOutOfRange, 0x200, 0x1000⟩) ∧
    (∃ t, exec (.ldXMem 15) { start 0x200 [] with I := 0xFF1 } = .next t ∧ t.fault = some ⟨.dataOutOfRange, 0x200, 0x1000⟩) ∧
    (∃ t, exec (.skp 0) (start 0x200 [(0, 16)]) = .next t ∧ t.fault = some ⟨.keyOutOfRange, 0x200, 16⟩) :=
  ⟨⟨_, rfl, rfl⟩, ⟨_, rfl, rfl⟩, ⟨_, rfl, rfl⟩, ⟨_, rfl, rfl⟩, ⟨_, rfl, rfl⟩⟩

/-- A state with a fault latched. -/
def latchedState (ops : List HostOp) : State :=
  { start 0x200 [] with fault := some ⟨.stackUnderflow, 0x200, 0⟩, inputs := ops }

theorem test_witness_Latched : (latchedState []).fault = some ⟨.stackUnderflow, 0x200, 0⟩ ∧ (latchedState []).inputs = [] ∧
    (latchedState [.cycle 1, .tick]).fault = some ⟨.stackUnderflow, 0x200, 0⟩ ∧
    (latchedState [.cycle 1, .tick]).inputs = .cycle 1 :: [.tick] := ⟨rfl, rfl, rfl, rfl⟩

theorem test_witness_OnlyPowerOnAndLoad :
    (∃ t, step (latchedState [.powerOn]) = .next t ∧ t.fault ≠ some ⟨.stackUnderflow, 0x200, 0⟩) ∧
    (∃ t, step (latchedState [.load (.bytes [])]) = .next t ∧ t.fault ≠ some ⟨.stackUnderflow, 0x200, 0⟩ ∧
      t.out = some (.load .loadOk)) :=
  ⟨⟨_, rfl, by decide⟩, ⟨_, rfl, by decide, rfl⟩⟩

/-- The deepest stack, its slots at their highest, and the highest `pc`. -/
def edgeState : State := { start 0x10FE [] with SP := 16, stack := Vector.replicate 16 0x1000, mem := [(0xFFF, 1)] }

theorem test_edge_inv : edgeState.Inv :=
  ⟨by decide, by decide, by decide, by decide, by simp [edgeState, start, State.reset]⟩

theorem test_latched_inv (ops : List HostOp) : (latchedState ops).Inv := by
  refine ⟨⟨.nil, by simp [latchedState, start, State.reset]⟩, show (0 : Byte).toNat ≤ 16 by decide,
    show ∀ j : Fin 16, (State.reset.stack.get j).toNat ≤ 0x1000 by decide, show (0x200 : Word).toNat ≤ 0x10FE by decide, ?_⟩
  rintro r hr
  cases hr
  exact ⟨rfl, rfl⟩

theorem test_witness_StepAlwaysReturns : edgeState.Inv ∧ edgeState.NoFault ∧ (latchedState [.cycle 0]).Inv ∧
    (latchedState [.cycle 0]).inputs ≠ [] := ⟨test_edge_inv, rfl, test_latched_inv _, by simp [latchedState]⟩

/-- With no fault latched and with one: the invariant is the only premise. -/
theorem test_witness_AnySchedule : edgeState.Inv ∧ (latchedState []).Inv := ⟨test_edge_inv, test_latched_inv _⟩

theorem test_witness_HostOperations : (latchedState [.tick]).inputs = .tick :: [] ∧
    (latchedState [.setKeys 0xFFFF]).inputs = .setKeys 0xFFFF :: [] ∧ (latchedState [.powerOn]).inputs = .powerOn :: [] ∧
    (latchedState [.observe]).inputs = .observe :: [] ∧
    (latchedState [.load (.readFailed 3)]).inputs = .load (.readFailed 3) :: [] := ⟨rfl, rfl, rfl, rfl, rfl⟩

/-- Images of no byte, of the limit's length and of one more. -/
theorem test_witness_Load : (start 0 []).mem.wf ∧ ([] : List Byte).length ≤ 3583 ∧
    (List.replicate 3583 (1 : Byte)).length ≤ 3583 ∧ 3583 < (List.replicate 3584 (1 : Byte)).length ∧
    ∀ image : List Byte, ({ start 0 [] with inputs := [.load (.bytes image)] }).inputs = .load (.bytes image) :: [] :=
  ⟨⟨.nil, by simp [start, State.reset]⟩, by decide, by rw [List.length_replicate], by rw [List.length_replicate]; decide,
    fun _ => rfl⟩

/-- Sprites of no row and of 15 at the top of memory, and one byte beyond it. -/
theorem test_witness_Drw : InRange (({ start 0 [] with I := 0xFFFF }).ea 0) 0 ∧ InRange (({ start 0 [] with I := 0xFF1 }).ea 0) 15 ∧
    LowestOutOfRange (({ start 0 [] with I := 0xFF2 }).ea 0) 15 0x1000 ∧
    LowestOutOfRange (({ start 0 [] with I := 0xFFFF }).ea 0) 1 0xFFFF :=
  ⟨fun _ h => absurd h (Nat.not_lt_zero _), fun k h => show 0xFF1 + k ≤ 0xFFF by omega,
    ⟨by decide, by decide, by decide, fun b _ h => by omega⟩, ⟨by decide, by decide, by decide, fun b h1 h2 => by
      have : 0xFFFF ≤ b := h1
      omega⟩⟩

/-- A sprite that covers a pixel that is on, and the same sprite on a clear display. -/
theorem test_witness_DrwCollision :
    (∃ r c, ({ (start 0 []).writeByte 0x300 0x80 with disp := Display.off.setPixel 0 0 true }).disp.pixel r c = true ∧
      SpriteCovers { (start 0 []).writeByte 0x300 0x80 with disp := Display.off.setPixel 0 0 true } 0x300 1 0 0 r.val c.val) ∧
    (∀ (r : Fin 32) (c : Fin 64), (start 0 []).disp.pixel r c = true → ¬SpriteCovers (start 0 []) 0x300 1 0 0 r.val c.val) :=
  ⟨⟨0, 0, by decide, 0, 0, by decide, by decide, by decide, by decide, by decide⟩, fun r c h => by
    rw [show (start 0 []).disp.pixel r c = false from Display.pixel_off r c] at h; cases h⟩

theorem test_witness_DrawingTwice : (14 : RegIdx) ≠ VF ∧ (0 : RegIdx) ≠ VF ∧ InRange (({ start 0 [] with I := 0xFF1 }).ea 0) 15 :=
  ⟨by decide, by decide, fun k h => show 0xFF1 + k ≤ 0xFFF by omega⟩

/-- Depths 1 and 16, 0, and 17. -/
theorem test_witness_Ret : ({ start 0 [] with SP := 1 }).SP ≠ 0 ∧ ({ start 0 [] with SP := 16 }).SP ≠ 0 ∧
    ({ start 0 [] with SP := 16 }).SP.toNat ≤ 16 ∧ (start 0 []).SP = 0 ∧ 16 < ({ start 0 [] with SP := 17 }).SP.toNat := by
  decide

/-- Depths 0 and 15, and 16 and 255; and a callee's state with the caller's stack. -/
theorem test_witness_Call : (start 0 []).SP.toNat < 16 ∧ ({ start 0 [] with SP := 15 }).SP.toNat < 16 ∧
    16 ≤ ({ start 0 [] with SP := 16 }).SP.toNat ∧ 16 ≤ ({ start 0 [] with SP := 255 }).SP.toNat ∧
    ∃ t, exec (.call 0xFFF) { start 0 [] with SP := 15 } = .next t ∧ t.SP = t.SP ∧ t.stack = t.stack :=
  ⟨by decide, by decide, by decide, by decide, _, rfl, rfl, rfl⟩

theorem test_witness_FlagOrder : (14 : RegIdx) ≠ VF ∧ (15 : RegIdx) = VF := by decide

/-- The last address at which all digits fit, and the next. -/
theorem test_witness_Bcd : (start 0 []).mem.wf ∧ InRange (({ start 0 [] with I := 0xFFD }).ea 0) 3 ∧
    LowestOutOfRange (({ start 0 [] with I := 0xFFE }).ea 0) 3 0x1000 :=
  ⟨⟨.nil, by simp [start, State.reset]⟩, fun k h => show 0xFFD + k ≤ 0xFFF by omega,
    by decide, by decide, by decide, fun b _ h => by omega⟩

/-- One register and all 16, at the last address at which they fit and at the next. -/
theorem test_witness_Block : InRange (({ start 0 [] with I := 0xFFF }).ea 0) ((0 : RegIdx).toNat + 1) ∧
    InRange (({ start 0 [] with I := 0xFF0 }).ea 0) ((15 : RegIdx).toNat + 1) ∧
    LowestOutOfRange (({ start 0 [] with I := 0xFF1 }).ea 0) ((15 : RegIdx).toNat + 1) 0x1000 ∧
    (0 : RegIdx).toNat ≤ (0 : RegIdx).toNat ∧ (15 : RegIdx).toNat ≤ (15 : RegIdx).toNat := by
  refine ⟨fun k h => ?_, fun k h => ?_, ⟨by decide, by decide, by decide, fun b _ h => by omega⟩, by decide, by decide⟩
  · have : k < 1 := h
    show 0xFFF + k ≤ 0xFFF
    omega
  · have : k < 16 := h
    show 0xFF0 + k ≤ 0xFFF
    omega

/-- The first two bytes stored and the last two, by Fx55 with two registers and with 16, and by Fx33. -/
theorem test_witness_StoredWord :
    (start 0 []).mem.wf ∧ ({ start 0xFFC [] with I := 0xFFE }).ea 0 = ({ start 0xFFC [] with I := 0xFFE }).pc.toNat + 2 ∧
    0 < (1 : RegIdx).toNat ∧ InRange (({ start 0xFFC [] with I := 0xFFE }).ea 0) ((1 : RegIdx).toNat + 1) ∧
    ({ start 0xFFC [] with I := 0xFF0 }).ea 14 = ({ start 0xFFC [] with I := 0xFF0 }).pc.toNat + 2 ∧
    14 < (15 : RegIdx).toNat ∧ InRange (({ start 0xFFC [] with I := 0xFF0 }).ea 0) ((15 : RegIdx).toNat + 1) ∧
    ({ start 0xFFC [] with I := 0xFFD }).ea 1 = ({ start 0xFFC [] with I := 0xFFD }).pc.toNat + 2 ∧
    InRange (({ start 0xFFC [] with I := 0xFFD }).ea 0) 3 := by
  refine ⟨⟨.nil, by simp [start, State.reset]⟩, by decide, by decide, fun k h => ?_, by decide, by decide, fun k h => ?_,
    by decide, fun k h => ?_⟩
  · have : k < 2 := h
    show 0xFFE + k ≤ 0xFFF
    omega
  · have : k < 16 := h
    show 0xFF0 + k ≤ 0xFFF
    omega
  · show 0xFFD + k ≤ 0xFFF
    omega

/-- Key numbers 0 and 15, 16 and 255. -/
theorem test_witness_Keys : ((start 0 []).reg 1).toNat ≤ 15 ∧ ((start 0 [(1, 15)]).reg 1).toNat ≤ 15 ∧
    15 < ((start 0 [(1, 16)]).reg 1).toNat ∧ 15 < ((start 0 [(1, 255)]).reg 1).toNat := by decide

/-- No key; key 0; and key 15 alone. -/
theorem test_witness_KeyWait : (∀ k, k < 16 → (start 0 []).keys.getLsbD k = false) ∧
    ({ start 0 [] with keys := 1 }).keys.getLsbD 0 = true ∧ ({ start 0 [] with keys := 0x8000 }).keys.getLsbD 15 = true ∧
    (∀ k, k < 15 → ({ start 0 [] with keys := 0x8000 }).keys.getLsbD k = false) := by decide

/-- Two states that differ in a register the instruction does not read. -/
theorem test_witness_Registers : (∃ t, exec (.shr 1 2) (start 0 [(1, 4)]) = .next t ∧ t.NoFault ∧ (3 : RegIdx) ∉ regsWritten (.shr 1 2) (start 0 [(1, 4)])) ∧
    (start 0 [(1, 4)]).NoFault ∧
    start 0 [(1, 4), (2, 9)] = { start 0 [(1, 4)] with V := (start 0 [(1, 4), (2, 9)]).V } ∧
    (∀ r, r ∈ regsRead (.shr 1 2) → (start 0 [(1, 4), (2, 9)]).reg r = (start 0 [(1, 4)]).reg r) ∧
    (15 : RegIdx) ∈ regsWritten (.shr 1 2) (start 0 [(1, 4)]) :=
  ⟨⟨_, rfl, rfl, by decide⟩, rfl, rfl, by decide, by decide⟩

/-- An instruction that completes and one that faults, with the deepest stack. -/
theorem test_witness_PcAfter : ({ start 0 [] with SP := 16 }).NoFault ∧ ({ start 0 [] with SP := 16 }).SP.toNat ≤ 16 ∧
    (∃ t, exec .ret { start 0 [] with SP := 16 } = .next t ∧ t.NoFault) ∧
    (∃ t, exec (.call 0) { start 0 [] with SP := 16 } = .next t ∧ ¬t.NoFault) :=
  ⟨rfl, by decide, ⟨_, rfl, rfl⟩, ⟨_, rfl, by simp [State.NoFault]⟩⟩

theorem test_witness_OnlyTheNamed : ∃ t, exec (.ldDtX 0) (start 0 [(0, 3)]) = .next t ∧ t.DT = 3 := ⟨_, rfl, rfl⟩

theorem test_witness_OnlyRnd : (∀ x kk, Instr.addReg 1 2 ≠ .rnd x kk) ∧
    ∃ t, exec (.addReg 1 2) (start 0 []) = .next t := ⟨by simp, _, rfl⟩

theorem test_witness_TickCommutes : (∀ x, Instr.addReg 1 2 ≠ .ldXDt x ∧ Instr.addReg 1 2 ≠ .ldDtX x ∧
    Instr.addReg 1 2 ≠ .ldStX x) ∧ ∃ t, exec (.addReg 1 2) { start 0 [] with DT := 1 } = .next t := ⟨by simp, _, rfl⟩

/-- A Tick, and a Cycle that fetches another instruction. -/
theorem test_witness_DtMoves :
    (∃ t, step { start 0 [] with DT := 2, inputs := [.tick] } = .next t ∧ t.DT = 1) ∧
    ¬NextIsCycle { start 0 [] with DT := 2, inputs := [.tick] } ∧
    (∃ t, step State.reset = .next t) ∧ (∀ rest, State.reset.inputs ≠ .powerOn :: rest) ∧
    (∀ x, ¬Fetches State.reset (.ldDtX x)) := by
  refine ⟨⟨_, rfl, by decide⟩, (by rintro (h | ⟨r, rest, h⟩) <;> cases h), ⟨_, rfl⟩, by simp [State.reset], ?_⟩
  rintro x ⟨w, hw, hd⟩
  obtain rfl : 0xF090 = w := Option.some.inj ((show State.reset.fetch = some 0xF090 by decide).symm.trans hw)
  cases (show decode 0xF090 = .error (.illegal 0xF090) by decide).symm.trans hd

theorem test_witness_Memories : Memory.wf [(0x200, 1), (0xFFF, 2)] ∧ ∀ a, Memory.read [(0x200, 1), (0xFFF, 2)] a =
    Memory.read (Memory.write (Memory.write [] 0xFFF 2) 0x200 1) a :=
  ⟨by decide, fun _ => by rw [show Memory.write (Memory.write [] 0xFFF 2) 0x200 1 = [(0x200, 1), (0xFFF, 2)] by decide]⟩

/-- With no fault latched, and with one. -/
theorem test_witness_StepKeeps : (edgeState.Inv ∧ ∃ t, step edgeState = .next t) ∧
    (latchedState [.tick]).Inv ∧ ∃ t, step (latchedState [.tick]) = .next t :=
  ⟨⟨test_edge_inv, _, rfl⟩, test_latched_inv _, _, rfl⟩

end Sys2Proof.Tests
end

section
/-! PROOF. The whole machine's state (10_state.md): what an instruction can raise and write, said once for all 34; who writes
each piece of state; who reads the draw; the invariant, at reset and over every step; and any schedule of operations. -/

namespace Sys2Proof.Machine

open Sys2Proof

/-! ### The control transfers and the key wait, an equation per case -/

theorem execRet_of_empty {s : State} (h : s.SP = 0) : execRet s = raise .stackUnderflow 0 s := by
  simp [execRet, h]

theorem execRet_of_popSlot {s : State} {ret : Word} (h0 : s.SP ≠ 0) (h : s.popSlot = some ret) :
    execRet s = .next (s.popSP.jump ret) := by
  rw [execRet, if_neg h0, h]

theorem execRet_of_noSlot {s : State} (h0 : s.SP ≠ 0) (h : s.popSlot = none) : execRet s = .fault (.noStackSlot s.SP) := by
  rw [execRet, if_neg h0, h]

theorem execCall_of_full {s : State} (h : 16 ≤ s.SP.toNat) (nnn : Addr) :
    execCall nnn s = raise .stackOverflow s.SP.toNat s := if_pos h

theorem execCall_of_room {s : State} (h : s.SP.toNat < 16) (nnn : Addr) :
    execCall nnn s = .next ((s.push (s.pc + 2)).jump (zextAddr nnn)) := if_neg (Nat.not_le.2 h)

theorem execLdXK_of_leastKey {s : State} {k : Nat} (h : s.leastKey = some k) (x : RegIdx) :
    execLdXK x s = .next (s.advance.setReg x (BitVec.ofNat 8 k)) := by
  simp [execLdXK, h]

theorem execLdXK_of_noKey {s : State} (h : s.leastKey = none) (x : RegIdx) : execLdXK x s = .next s := by
  simp [execLdXK, h, State.advance]

/-- No least key is pressed exactly when the latch is 0. -/
theorem State.leastKey_none_iff_keys {s : State} : s.leastKey = none ↔ s.keys = 0 := by
  rw [State.leastKey_none]
  constructor
  · intro h
    refine BitVec.eq_of_getLsbD_eq fun k hk => ?_
    simpa [State.keyDown] using h k hk
  · intro h k _
    simp [State.keyDown, h]

/-- Above 16 the slot a pop would read does not exist. -/
theorem State.popSlot_of_gt {s : State} (h : 16 < s.SP.toNat) : s.popSlot = none := by
  have hsub : (s.SP - 1).toNat = s.SP.toNat - 1 := by
    rw [BitVec.toNat_sub_of_le (by simp [BitVec.le_def]; omega)]; rfl
  rw [State.popSlot, hsub]
  exact Vector.getElem?_eq_none (by omega)

@[simp] theorem toNat_zextAddr (nnn : Addr) : (zextAddr nnn).toNat = nnn.toNat := by
  have := nnn.isLt
  simp [zextAddr]; omega

theorem toNat_zextAddr_add (nnn : Addr) (v : Byte) : (zextAddr nnn + v.setWidth 16).toNat = nnn.toNat + v.toNat := by
  have := nnn.isLt
  have := v.isLt
  simp [BitVec.toNat_add]; omega

/-! ### What an instruction can do -/

/-- The fault an instruction can raise in a state, by the rules of the instructions (60_exceptions.md R132). -/
def CanRaise (i : Instr) (s : State) (cause : FaultCause) (info : Nat) : Prop :=
  match i with
  | .ret => cause = .stackUnderflow ∧ s.SP = 0 ∧ info = 0
  | .call _ => cause = .stackOverflow ∧ 16 ≤ s.SP.toNat ∧ info = s.SP.toNat
  | .drw _ _ n => cause = .dataOutOfRange ∧ LowestOutOfRange (s.ea 0) n.toNat info
  | .ldBX _ => cause = .dataOutOfRange ∧ LowestOutOfRange (s.ea 0) 3 info
  | .ldMemX x | .ldXMem x => cause = .dataOutOfRange ∧ LowestOutOfRange (s.ea 0) (x.toNat + 1) info
  | .skp x | .sknp x => cause = .keyOutOfRange ∧ 15 < (s.reg x).toNat ∧ info = (s.reg x).toNat
  | _ => False

/-- The fields an instruction that completes may write: `t` is `s` in every other field. -/
def WritesOnlyItsFields (i : Instr) (s t : State) : Prop :=
  match i with
  | .cls => t = { s with pc := t.pc, disp := t.disp }
  | .drw _ _ _ => t = { s with pc := t.pc, disp := t.disp, V := t.V }
  | .ret => t = { s with pc := t.pc, SP := t.SP }
  | .call _ => t = { s with pc := t.pc, SP := t.SP, stack := t.stack }
  | .ldI _ | .addIX _ | .ldFX _ => t = { s with pc := t.pc, I := t.I }
  | .ldBX _ | .ldMemX _ => t = { s with pc := t.pc, mem := t.mem }
  | .ldDtX _ => t = { s with pc := t.pc, DT := t.DT }
  | .ldStX _ => t = { s with pc := t.pc, ST := t.ST }
  | _ => t = { s with pc := t.pc, V := t.V }

theorem State.advance_writeBytes_eq (s : State) (a : Nat) (vs : List Byte) :
    s.advance.writeBytes a vs = { s with pc := s.pc + 2, mem := (s.advance.writeBytes a vs).mem } :=
  State.writeBytes_eq vs a s.advance

theorem State.advance_setRegs_eq (s : State) (k : Nat) (vs : List Byte) :
    s.advance.setRegs k vs = { s with pc := s.pc + 2, V := (s.advance.setRegs k vs).V } :=
  State.setRegs_eq vs k s.advance

/-- What an instruction that answers a next state can do: take a fault it can raise, or complete, writing only its fields and
leaving `pc` as the table of 10_state.md R24 says (00EE where its slot exists). -/
theorem exec_next {i : Instr} {s t : State} (h : exec i s = .next t) :
    (∃ cause info, CanRaise i s cause info ∧ TookFault cause info s t) ∨
    (WritesOnlyItsFields i s t ∧ (s.SP.toNat ≤ 16 → PcAfter i s t)) := by
  cases i with
  | ret =>
    rcases execRet_next h with ⟨h0, ht⟩ | ⟨h0, ret, hret, rfl⟩
    · exact .inl ⟨_, _, ⟨rfl, h0, rfl⟩, ht⟩
    · refine .inr ⟨rfl, fun hsp => ?_⟩
      obtain ⟨hlt, hslot⟩ := State.popSlot_of_le h0 hsp
      simpa [PcAfter, hlt] using hslot.symm.trans hret
  | call nnn =>
    rcases execCall_next h with ⟨hfull, ht⟩ | ⟨hroom, rfl⟩
    · exact .inl ⟨_, _, ⟨rfl, hfull, rfl⟩, ht⟩
    · exact .inr ⟨rfl, fun _ => ⟨by simp, by simp [hroom]⟩⟩
  | jp nnn =>
    obtain rfl := Host.Outcome.next.inj h
    exact .inr ⟨rfl, fun _ => toNat_zextAddr nnn⟩
  | jpV0 nnn =>
    obtain rfl := Host.Outcome.next.inj h
    exact .inr ⟨rfl, fun _ => toNat_zextAddr_add nnn (s.reg 0)⟩
  | seImm _ _ | sneImm _ _ | seReg _ _ | sneReg _ _ =>
    obtain rfl := Host.Outcome.next.inj h
    exact .inr ⟨by simp [WritesOnlyItsFields, State.advanceSkip_eq], fun _ => by simp [PcAfter, BitVec.add_assoc]⟩
  | skp _ =>
    rcases withKey_next h with ⟨-, rfl⟩ | ⟨hk, ht⟩
    · exact .inr ⟨by simp [WritesOnlyItsFields, State.advanceSkip_eq], fun _ => by simp [PcAfter, BitVec.add_assoc]⟩
    · exact .inl ⟨_, _, ⟨rfl, hk, rfl⟩, ht⟩
  | sknp _ =>
    rcases withKey_next (body := fun down => s.advanceSkip (!down)) h with ⟨-, rfl⟩ | ⟨hk, ht⟩
    · exact .inr ⟨by simp [WritesOnlyItsFields, State.advanceSkip_eq], fun _ => by simp [PcAfter, BitVec.add_assoc]⟩
    · exact .inl ⟨_, _, ⟨rfl, hk, rfl⟩, ht⟩
  | drw _ _ _ =>
    rcases withDataRange_next h with ⟨-, rfl⟩ | ⟨a, ha, ht⟩
    · exact .inr ⟨rfl, fun _ => rfl⟩
    · exact .inl ⟨_, a, ⟨rfl, ha⟩, ht⟩
  | ldBX _ | ldMemX _ =>
    rcases withDataRange_next h with ⟨-, rfl⟩ | ⟨a, ha, ht⟩
    · exact .inr ⟨by simpa [WritesOnlyItsFields] using State.advance_writeBytes_eq .., fun _ => by simp [PcAfter]⟩
    · exact .inl ⟨_, a, ⟨rfl, ha⟩, ht⟩
  | ldXMem _ =>
    rcases withDataRange_next h with ⟨-, rfl⟩ | ⟨a, ha, ht⟩
    · exact .inr ⟨by simpa [WritesOnlyItsFields] using State.advance_setRegs_eq .., fun _ => by simp [PcAfter]⟩
    · exact .inl ⟨_, a, ⟨rfl, ha⟩, ht⟩
  | ldXK _ =>
    rcases execLdXK_next h with ⟨hk, rfl⟩ | ⟨k, hk, rfl⟩
    · exact .inr ⟨rfl, fun _ => by simp [PcAfter, State.leastKey_none_iff_keys.1 hk]⟩
    · have hkeys : s.keys ≠ 0 := fun h0 => by simp [State.leastKey_none_iff_keys.2 h0] at hk
      exact .inr ⟨rfl, fun _ => (if_neg hkeys).symm⟩
  | _ =>
    obtain rfl := Host.Outcome.next.inj h
    exact .inr ⟨rfl, fun _ => rfl⟩

theorem WritesOnlyItsFields.fault_eq {i : Instr} {s t : State} (h : WritesOnlyItsFields i s t) : t.fault = s.fault := by
  cases i <;> rw [h]

/-! ### Who writes and reads each piece of state -/

/-- Settles O53: a fault writes the latch only, and an instruction that completes writes only its fields. -/
theorem onlyTheNamedInstructionsWrite : Obligations.OnlyTheNamedInstructionsWrite := by
  intro i s t h
  rcases exec_next h with ⟨cause, info, -, ht⟩ | ⟨ht, -⟩
  · rw [ht]
    simp
  · cases i <;> (rw [ht]; simp)


/-- The state with another draw for the Cycle under way. -/
def State.withDraw (s : State) (r : Byte) : State := { s with rnd := r }

theorem State.writeBytes_withDraw (r : Byte) (vs : List Byte) :
    ∀ (a : Nat) (s : State), (s.withDraw r).writeBytes a vs = (s.writeBytes a vs).withDraw r := by
  induction vs with
  | nil => intro _ _; rfl
  | cons v vs ih => exact fun a s => ih (a + 1) (s.writeByte a v)

theorem State.setRegs_withDraw (r : Byte) (vs : List Byte) :
    ∀ (k : Nat) (s : State), (s.withDraw r).setRegs k vs = (s.setRegs k vs).withDraw r := by
  induction vs with
  | nil => intro _ _; rfl
  | cons v vs ih => exact fun k s => ih (k + 1) (s.setReg (BitVec.ofNat 4 k) v)

theorem State.advanceSkip_withDraw (r : Byte) (c : Bool) (s : State) :
    (s.withDraw r).advanceSkip c = (s.advanceSkip c).withDraw r := by
  cases c <;> rfl

theorem withDataRange_withDraw {n : Nat} {s t body body' : State} {r : Byte} (hbody : body' = body.withDraw r)
    (h : withDataRange n s (.next body) = .next t) :
    withDataRange n (s.withDraw r) (.next body') = .next (t.withDraw r) := by
  subst hbody
  rcases withDataRange_next h with ⟨hr, rfl⟩ | ⟨a, ha, rfl⟩
  · exact withDataRange_inRange (s := s.withDraw r) hr _
  · exact withDataRange_lowest (s := s.withDraw r) ha _

theorem withKey_withDraw {k : Byte} {s t : State} {body body' : Bool → State} {r : Byte}
    (hbody : ∀ c, body' c = (body c).withDraw r) (h : withKey k s (fun down => .next (body down)) = .next t) :
    withKey k (s.withDraw r) (fun down => .next (body' down)) = .next (t.withDraw r) := by
  obtain rfl : body' = fun c => (body c).withDraw r := funext hbody
  rcases withKey_next h with ⟨hk, rfl⟩ | ⟨hk, rfl⟩
  · exact withKey_le (s := s.withDraw r) hk _
  · exact withKey_gt (s := s.withDraw r) hk _

/-- Every instruction but Cxkk commutes with the choice of the draw, because each operation it is made of does. -/
theorem exec_withDraw {i : Instr} {s t : State} (r : Byte) (hi : ∀ x kk, i ≠ .rnd x kk) (h : exec i s = .next t) :
    exec i (s.withDraw r) = .next (t.withDraw r) := by
  cases i with
  | rnd x kk => exact absurd rfl (hi x kk)
  | ret =>
    rcases execRet_next h with ⟨h0, rfl⟩ | ⟨h0, ret, hret, rfl⟩
    · exact execRet_of_empty (s := s.withDraw r) h0
    · exact execRet_of_popSlot (s := s.withDraw r) h0 hret
  | call nnn =>
    rcases execCall_next h with ⟨hfull, rfl⟩ | ⟨hroom, rfl⟩
    · exact execCall_of_full (s := s.withDraw r) hfull nnn
    · exact execCall_of_room (s := s.withDraw r) hroom nnn
  | seImm _ _ | sneImm _ _ | seReg _ _ | sneReg _ _ =>
    obtain rfl := Host.Outcome.next.inj h
    exact congrArg _ (State.advanceSkip_withDraw r _ s)
  | skp _ => exact withKey_withDraw (fun c => State.advanceSkip_withDraw r c s) h
  | sknp _ =>
    exact withKey_withDraw (body := fun down => s.advanceSkip (!down)) (fun c => State.advanceSkip_withDraw r (!c) s) h
  | drw _ _ _ => exact withDataRange_withDraw rfl h
  | ldBX _ | ldMemX _ => exact withDataRange_withDraw (State.writeBytes_withDraw r _ _ s.advance) h
  | ldXMem _ => exact withDataRange_withDraw (State.setRegs_withDraw r _ _ s.advance) h
  | ldXK x =>
    rcases execLdXK_next h with ⟨hk, rfl⟩ | ⟨k, hk, rfl⟩
    · exact execLdXK_of_noKey (s := t.withDraw r) hk x
    · exact execLdXK_of_leastKey (s := s.withDraw r) hk x
  | _ =>
    obtain rfl := Host.Outcome.next.inj h
    rfl

/-- Settles O54, by `exec_withDraw`. -/
theorem onlyRndReadsTheDraw : Obligations.OnlyRndReadsTheDraw :=
  fun _ _ _ r hi h => exec_withDraw r hi h

/-! ### The invariant -/

/-- The invariant speaks of what the host observes only. -/
theorem State.Inv.of_observe_eq {s t : State} (hs : s.Inv) (h : t.observe = s.observe) : t.Inv := by
  have hmem := congrArg Observation.mem h
  have hsp := congrArg Observation.SP h
  have hstack := congrArg Observation.stack h
  have hpc := congrArg Observation.pc h
  have hfault := congrArg Observation.fault h
  simp only [State.observe] at hmem hsp hstack hpc hfault
  exact ⟨hmem ▸ hs.mem, hsp ▸ hs.sp, hstack ▸ hs.stack, hpc ▸ hs.pc, hfault ▸ hpc ▸ hs.fault⟩

/-- Latching a legal record at the machine's own `pc` keeps the invariant (60_exceptions.md R134). -/
theorem State.Inv.of_tookFault {cause : FaultCause} {info : Nat} {s t : State} (hs : s.Inv) (h : TookFault cause info s t)
    (hr : FaultRecord.Legal ⟨cause, s.pc, info⟩) : t.Inv := by
  rw [h]
  refine ⟨hs.mem, hs.sp, hs.stack, hs.pc, fun r e => ?_⟩
  obtain rfl := Option.some.inj e
  exact ⟨rfl, hr⟩

/-- A data address out of range is one of at most 16 from `I`, so its excess is bounded (20_memory.md R49). -/
theorem legal_dataOutOfRange {s : State} {n a : Nat} (hn : n ≤ 16) (h : LowestOutOfRange (s.ea 0) n a) :
    FaultRecord.Legal ⟨.dataOutOfRange, s.pc, a⟩ := by
  obtain ⟨-, hlt, hgt, -⟩ := h
  have := s.I.isLt
  simp only [State.ea] at hlt
  exact ⟨hgt, show a ≤ 0xFFFF + 15 by omega⟩

/-- What an instruction can raise is legal, while `SP` is at most 16. -/
theorem CanRaise.legal {i : Instr} {s : State} {cause : FaultCause} {info : Nat} (hsp : s.SP.toNat ≤ 16)
    (h : CanRaise i s cause info) : FaultRecord.Legal ⟨cause, s.pc, info⟩ := by
  cases i with
  | ret =>
    obtain ⟨rfl, -, rfl⟩ := h
    rfl
  | call _ =>
    obtain ⟨rfl, hfull, rfl⟩ := h
    exact Nat.le_antisymm hsp hfull
  | drw _ _ n =>
    obtain ⟨rfl, ha⟩ := h
    exact legal_dataOutOfRange n.isLt.le ha
  | ldBX _ =>
    obtain ⟨rfl, ha⟩ := h
    exact legal_dataOutOfRange (by decide) ha
  | ldMemX x | ldXMem x =>
    obtain ⟨rfl, ha⟩ := h
    exact legal_dataOutOfRange x.isLt ha
  | skp x | sknp x =>
    obtain ⟨rfl, hk, rfl⟩ := h
    exact ⟨hk, Nat.le_of_lt_succ (s.reg x).isLt⟩
  | _ => exact h.elim

@[simp] theorem length_bcdDigits (v : Byte) : (bcdDigits v).length = 3 := rfl

@[simp] theorem State.length_regsUpTo (s : State) (x : RegIdx) : (s.regsUpTo x).length = x.toNat + 1 := by
  simp [State.regsUpTo]

/-- A range-checked store of as many bytes as were checked keeps memory canonical. -/
theorem wf_of_withDataRange_writeBytes {n : Nat} {s t : State} {vs : List Byte} (hlen : vs.length = n) (hn : 0 < n)
    (hm : s.mem.wf) (h : withDataRange n s (.next (s.advance.writeBytes (s.ea 0) vs)) = .next t) : t.mem.wf := by
  rcases withDataRange_next h with ⟨hr, rfl⟩ | ⟨a, -, rfl⟩
  · exact State.wf_writeBytes vs _ _ hm (hlen ▸ hr.le hn)
  · exact hm

theorem exec_keeps_mem_wf {i : Instr} {s t : State} (hm : s.mem.wf) (h : exec i s = .next t) : t.mem.wf := by
  obtain ⟨-, hmem, -⟩ := onlyTheNamedInstructionsWrite i s t h
  rcases hmem with e | ⟨x, rfl | rfl⟩
  · rwa [e]
  · exact wf_of_withDataRange_writeBytes (length_bcdDigits _) (by omega) hm h
  · exact wf_of_withDataRange_writeBytes (State.length_regsUpTo s x) (by omega) hm h

theorem exec_keeps_sp_le {i : Instr} {s t : State} (hsp : s.SP.toNat ≤ 16) (h : exec i s = .next t) :
    t.SP.toNat ≤ 16 := by
  obtain ⟨-, -, -, -, -, hSP, -⟩ := onlyTheNamedInstructionsWrite i s t h
  rcases hSP with e | rfl | ⟨nnn, rfl⟩
  · rwa [e]
  · rcases execRet_next h with ⟨-, rfl⟩ | ⟨h0, ret, -, rfl⟩
    · exact hsp
    · have : s.SP.toNat ≠ 0 := fun e => h0 (BitVec.eq_of_toNat_eq e)
      simp [BitVec.toNat_sub]; omega
  · rcases execCall_next h with ⟨-, rfl⟩ | ⟨hroom, rfl⟩
    · exact hsp
    · simp [BitVec.toNat_add]; omega

/-- A return address is two above the `pc` a call was fetched from, so at most 0x1000 (42_control_flow.md R99). -/
theorem exec_keeps_stack_le {i : Instr} {s t : State} (hpc : s.pc.toNat ≤ 0xFFE)
    (hstack : ∀ j : Fin 16, (s.stack.get j).toNat ≤ 0x1000) (h : exec i s = .next t) (j : Fin 16) :
    (t.stack.get j).toNat ≤ 0x1000 := by
  obtain ⟨-, -, -, -, -, -, hst, -⟩ := onlyTheNamedInstructionsWrite i s t h
  rcases hst with e | ⟨nnn, rfl⟩
  · rw [e]; exact hstack j
  · rcases execCall_next h with ⟨-, rfl⟩ | ⟨hroom, rfl⟩
    · exact hstack j
    · have hret : (s.pc + 2).toNat ≤ 0x1000 := by simp [BitVec.toNat_add]; omega
      have hj := hstack j
      simp only [Vector.get_eq_getElem, State.jump_stack, State.push_stack, Vector.getElem_setIfInBounds] at hj ⊢
      split
      · exact hret
      · exact hj

/-- The table of 10_state.md R24 bounds `pc`: a skip from 0xFFE ends at 0x1002, and Bnnn reaches at most 0xFFF + 0xFF. -/
theorem PcAfter.le {i : Instr} {s t : State} (hpc : s.pc.toNat ≤ 0xFFE)
    (hstack : ∀ j : Fin 16, (s.stack.get j).toNat ≤ 0x1000) (h : PcAfter i s t) : t.pc.toNat ≤ 0x10FE := by
  have h2 : (s.pc + 2).toNat ≤ 0x10FE := by simp [BitVec.toNat_add]; omega
  have h4 : (s.pc + 4).toNat ≤ 0x10FE := by simp [BitVec.toNat_add]; omega
  cases i with
  | ret =>
    obtain ⟨hlt, hslot⟩ := Vector.getElem?_eq_some_iff.1 h
    have := hstack ⟨_, hlt⟩
    rw [Vector.get_eq_getElem] at this
    rw [← hslot]
    exact this.trans (by decide)
  | jp nnn =>
    have := nnn.isLt
    have hjp : t.pc.toNat = nnn.toNat := h
    omega
  | call nnn =>
    have := nnn.isLt
    have hcall : t.pc.toNat = nnn.toNat := h.1
    omega
  | jpV0 nnn =>
    have := nnn.isLt
    have := (s.reg 0).isLt
    have hjp : t.pc.toNat = nnn.toNat + (s.reg 0).toNat := h
    omega
  | seImm _ _ | sneImm _ _ | seReg _ _ | sneReg _ _ | skp _ | sknp _ =>
    simp only [PcAfter] at h
    rw [h]
    split
    · exact h4
    · exact h2
  | ldXK _ =>
    simp only [PcAfter] at h
    rw [h]
    split
    · omega
    · exact h2
  | _ =>
    have hadvance : t.pc = s.pc + 2 := h
    rwa [hadvance]

/-- An instruction keeps the invariant, from a fetchable `pc` with no fault latched. -/
theorem exec_keeps_inv {i : Instr} {s t : State} (hs : s.Inv) (hf : s.fault = none) (hpc : s.pc.toNat ≤ 0xFFE)
    (h : exec i s = .next t) : t.Inv := by
  rcases exec_next h with ⟨cause, info, hraise, ht⟩ | ⟨hw, hafter⟩
  · exact hs.of_tookFault ht (hraise.legal hs.sp)
  · have hfault : t.fault = none := hw.fault_eq.trans hf
    exact ⟨exec_keeps_mem_wf hs.mem h, exec_keeps_sp_le hs.sp h, exec_keeps_stack_le hpc hs.stack h,
      (hafter hs.sp).le hpc hs.stack, by simp [hfault]⟩

theorem fetchExecute_keeps_inv {s t : State} (hs : s.Inv) (hf : s.fault = none) (h : fetchExecute s = .next t) : t.Inv := by
  rcases fetchExecute_cases s with ⟨hpc, e⟩ | ⟨w, -, hd, e⟩ | ⟨i, ⟨w, hw, -⟩, e⟩ <;> rw [e] at h
  · exact hs.of_tookFault (Host.Outcome.next.inj h).symm ⟨rfl, hpc⟩
  · exact hs.of_tookFault (Host.Outcome.next.inj h).symm ⟨w, rfl, hd⟩
  · exact exec_keeps_inv hs hf (State.fetch_some.1 hw).1 h

/-- Settles O59: memory lists nothing, every number of the state is 0 and the latch is empty. -/
theorem resetMeetsTheInvariant : Obligations.ResetMeetsTheInvariant :=
  ⟨⟨.nil, by simp [State.reset]⟩, by decide, by decide, by decide, by simp [State.reset]⟩

theorem powerOn_inv (s : State) : (powerOn s).Inv := State.Inv.of_observe_eq resetMeetsTheInvariant rfl

/-- What a Load can do: copy an image within the limit, or return a result and change nothing else. -/
theorem load_cases (source : ImageSource) (s : State) :
    (∃ image, image.length ≤ Config.loadLimit ∧
      load source s =
        { (s.writeBytes Config.progBase image).clearFault with pc := 0x200, out := some (.load .loadOk) }) ∨
    ∃ r, load source s = { s with out := some (.load r) } := by
  cases source with
  | readFailed kind => exact .inr ⟨_, rfl⟩
  | bytes image =>
    rcases Nat.lt_or_ge Config.loadLimit image.length with h | h
    · exact .inr ⟨_, if_pos h⟩
    · exact .inl ⟨image, h, if_neg (Nat.not_lt.2 h)⟩

theorem tick_keeps_inv {s : State} (hs : s.Inv) : (tick s).Inv := ⟨hs.mem, hs.sp, hs.stack, hs.pc, hs.fault⟩

theorem setKeys_keeps_inv {s : State} (hs : s.Inv) (k : Word) : (setKeys k s).Inv :=
  ⟨hs.mem, hs.sp, hs.stack, hs.pc, hs.fault⟩

/-- A Load keeps the invariant: an image within the limit ends below 0x1000. -/
theorem load_keeps_inv {s : State} (hs : s.Inv) (source : ImageSource) : (load source s).Inv := by
  rcases load_cases source s with ⟨image, hlen, e⟩ | ⟨r, e⟩
  · rw [e]
    have hfits : Config.progBase + image.length ≤ Config.memSize :=
      (Nat.add_le_add_left hlen Config.progBase).trans (by decide)
    exact ⟨State.wf_writeBytes image _ s hs.mem hfits, by simpa using hs.sp, by simpa using hs.stack,
      show (0x200 : Word).toNat ≤ 0x10FE by decide, by simp⟩
  · rw [e]
    exact hs.of_observe_eq rfl

/-- Settles O58: the operations but a Cycle write few fields, and a Cycle takes a legal fault or executes an instruction. -/
theorem stepKeepsTheInvariant : Obligations.StepKeepsTheInvariant := by
  intro s t hs h
  have hq (d : Nat) (q : List HostOp) (r : Byte) : State.Inv { s with draws := d, inputs := q, rnd := r } :=
    hs.of_observe_eq rfl
  rcases step_cases s with hc | ⟨rest, hop⟩
  · rcases step_nextIsCycle hc h with ⟨rec, q, rest, -, -, rfl⟩ | ⟨hf, q, d, u, hu, rfl⟩
    · exact hs.of_observe_eq rfl
    · exact (fetchExecute_keeps_inv (hq d s.inputs.tail q) hf hu).of_observe_eq rfl
  · have hrest := hq s.draws rest s.rnd
    rcases hop with ⟨-, e⟩ | ⟨src, -, e⟩ | ⟨k, -, e⟩ | ⟨-, e⟩ | ⟨-, e⟩ <;>
      obtain rfl := Host.Outcome.next.inj (e.symm.trans h)
    · exact powerOn_inv _
    · exact load_keeps_inv hrest src
    · exact setKeys_keeps_inv hrest k
    · exact tick_keeps_inv hrest
    · exact hrest.of_observe_eq rfl

/-! ### Any schedule -/

theorem withDataRange_returns (n : Nat) (s body : State) : ∃ t, withDataRange n s (.next body) = .next t := by
  rcases withDataRange_cases n s (.next body) with ⟨-, e⟩ | ⟨a, -, e⟩
  · exact ⟨body, e⟩
  · exact ⟨_, e⟩

theorem withKey_returns (k : Byte) (s : State) (body : Bool → State) :
    ∃ t, withKey k s (fun down => .next (body down)) = .next t := by
  rcases Nat.lt_or_ge 15 k.toNat with hk | hk
  · exact ⟨_, withKey_gt hk _⟩
  · exact ⟨_, withKey_le hk _⟩

/-- An instruction answers a next state, a fault taken or not, while `SP` is at most 16. -/
theorem exec_returns (i : Instr) {s : State} (hsp : s.SP.toNat ≤ 16) : ∃ t, exec i s = .next t := by
  cases i with
  | ret =>
    by_cases h0 : s.SP = 0
    · exact ⟨_, execRet_of_empty h0⟩
    · obtain ⟨_, hslot⟩ := State.popSlot_of_le h0 hsp
      exact ⟨_, execRet_of_popSlot h0 hslot⟩
  | call nnn =>
    rcases Nat.lt_or_ge s.SP.toNat 16 with hroom | hfull
    · exact ⟨_, execCall_of_room hroom nnn⟩
    · exact ⟨_, execCall_of_full hfull nnn⟩
  | skp x => exact withKey_returns (s.reg x) s s.advanceSkip
  | sknp x => exact withKey_returns (s.reg x) s fun down => s.advanceSkip (!down)
  | drw _ _ _ | ldBX _ | ldMemX _ | ldXMem _ => exact withDataRange_returns ..
  | ldXK x =>
    cases hk : s.leastKey with
    | none => exact ⟨_, execLdXK_of_noKey hk x⟩
    | some k => exact ⟨_, execLdXK_of_leastKey hk x⟩
  | _ => exact ⟨_, rfl⟩

theorem fetchExecute_returns {s : State} (hsp : s.SP.toNat ≤ 16) :
    ∃ t, fetchExecute s = .next t ∧ t.inputs = s.inputs := by
  rcases fetchExecute_cases s with ⟨-, e⟩ | ⟨w, -, -, e⟩ | ⟨i, -, e⟩
  · exact ⟨_, e, rfl⟩
  · exact ⟨_, e, rfl⟩
  · obtain ⟨t, ht⟩ := exec_returns i hsp
    obtain ⟨-, -, -, -, -, -, -, -, -, -, hinputs, -⟩ := onlyTheNamedInstructionsWrite i s t ht
    exact ⟨t, e.trans ht, hinputs⟩

theorem cycle_returns {s : State} (hsp : s.SP.toNat ≤ 16) (r : Byte) :
    ∃ t, cycle r s = .next t ∧ t.inputs = s.inputs := by
  rcases Option.eq_none_or_eq_some s.fault with hf | ⟨rec, hf⟩
  · obtain ⟨u, hu, hinputs⟩ := fetchExecute_returns (s := { s with rnd := r }) hsp
    exact ⟨{ u with out := some u.cycleResult }, by rw [cycle_of_noFault hf, hu]; rfl, hinputs⟩
  · exact ⟨_, cycle_of_latched hf r, rfl⟩

theorem load_inputs (source : ImageSource) (s : State) : (load source s).inputs = s.inputs := by
  rcases load_cases source s with ⟨image, -, e⟩ | ⟨r, e⟩ <;> simp [e]

/-- Every operation of the host answers a next state and leaves the queue as it is. -/
theorem perform_returns (op : HostOp) {s : State} (hsp : s.SP.toNat ≤ 16) :
    ∃ t, perform op s = .next t ∧ t.inputs = s.inputs := by
  cases op with
  | cycle r => exact cycle_returns hsp r
  | load source => exact ⟨_, rfl, load_inputs source s⟩
  | powerOn | setKeys _ | tick | observe => exact ⟨_, rfl, rfl⟩

/-- Settles O60, by induction on the schedule: each step takes the oldest operation and keeps the invariant. -/
theorem anyScheduleIsPerformed : Obligations.AnyScheduleIsPerformed := by
  intro s ops hs
  induction ops generalizing s with
  | nil => exact ⟨{ s with inputs := [] }, rfl, rfl, hs.of_observe_eq rfl⟩
  | cons op rest ih =>
    have hqueued : State.Inv { s with inputs := op :: rest } := hs.of_observe_eq rfl
    obtain ⟨u, hu, hrest⟩ := perform_returns op (s := { s with inputs := rest }) hs.sp
    have hstep : step { s with inputs := op :: rest } = .next u := (step_cons rfl).trans hu
    obtain ⟨t, ht, hempty, hinv⟩ := ih u (stepKeepsTheInvariant _ _ hqueued hstep)
    have hu_eq : { u with inputs := rest } = u := by rw [← show u.inputs = rest from hrest]
    rw [hu_eq] at ht
    exact ⟨t, (steps_succ hstep).trans ht, hempty, hinv⟩

/-! ### Reset, Observe and the stop beyond the stack -/

theorem length_font : font.length = 80 := rfl

theorem initialByte_of_lt {a : Nat} (h : a < font.length) : initialByte a = font[a] := by
  simp [initialByte, h]

theorem initialByte_of_ge {a : Nat} (h : 0x050 ≤ a) : initialByte a = 0 := by
  simp [initialByte, List.getD, List.getElem?_eq_none (length_font.trans_le h)]

/-- Settles O20: an unlisted address reads as after PowerOn, and every other field of reset is a constant. -/
theorem resetValues : Obligations.ResetValues := by
  refine ⟨length_font, fun a h => initialByte_of_lt h, fun a h _ => initialByte_of_ge h, ?_, rfl, rfl, rfl, rfl, rfl, ?_,
    Display.pixel_off, ?_, rfl⟩
  · intro r
    simp [State.reg, State.reset, Vector.get_eq_getElem]
  · intro j
    simp [State.reset, Vector.get_eq_getElem]
  · intro k
    simp [State.keyDown, State.reset]

/-- Settles O21: Observe writes the result alone. -/
theorem observeReadsWithoutEffect : Obligations.ObserveReadsWithoutEffect :=
  fun _ _ h => ⟨_, step_cons h, rfl, rfl, rfl⟩

/-- Settles O26: there is no slot above 16 to pop. -/
theorem retBeyondTheStackStops : Obligations.RetBeyondTheStackStops := by
  intro s h
  have h0 : s.SP ≠ 0 := fun e => by simp [e] at h
  exact execRet_of_noSlot h0 (State.popSlot_of_gt h)

end Sys2Proof.Machine
end

section
/-! PROOF. Memory (20_memory.md): the big-endian fetch, a stored word as the word fetched next, and the canonical form as
determined by what it reads as. -/

namespace Sys2Proof.Machine

open Sys2Proof

/-! ### The fetch -/

theorem State.fetch_of_le {s : State} (h : s.pc.toNat ≤ 0xFFE) :
    s.fetch = some (wordOfBytes (s.readByte s.pc.toNat) (s.readByte (s.pc.toNat + 1))) :=
  State.fetch_some.2 ⟨h, rfl⟩

/-- Settles O8: the fetched word is that of the bytes at `pc` and `pc + 1`, the first the high one. -/
theorem fetchIsBigEndian : Obligations.FetchIsBigEndian :=
  fun _ => ⟨fun h => ⟨_, State.fetch_of_le h, toNat_wordOfBytes _ _⟩, State.fetch_none.2⟩

/-! ### A stored word fetched -/

/-- The byte at place `k` of a run just written. -/
theorem State.readByte_writeBytes_add {s : State} {a k : Nat} {vs : List Byte} (hm : s.mem.wf)
    (hlen : a + vs.length ≤ Config.memSize) (hk : k < vs.length) : (s.writeBytes a vs).readByte (a + k) = vs[k] := by
  rw [State.readByte_writeBytes vs a s (a + k) hm hlen, dif_pos ⟨by omega, by omega⟩]
  simp

/-- With `pc` at place `k` of a run just written, the word fetched is that of the run's bytes `k` and `k + 1`. -/
theorem State.fetch_writeBytes {s : State} {a k : Nat} {vs : List Byte} (hm : s.mem.wf)
    (hlen : a + vs.length ≤ Config.memSize) (hpc : s.pc.toNat = a + k) (hk : k + 1 < vs.length) :
    (s.writeBytes a vs).fetch = some (wordOfBytes vs[k] vs[k + 1]) := by
  have hle : (s.writeBytes a vs).pc.toNat ≤ 0xFFE := by
    rw [State.writeBytes_pc]
    change _ ≤ 4096 at hlen
    omega
  rw [State.fetch_of_le hle, State.writeBytes_pc, hpc, State.readByte_writeBytes_add hm hlen (by omega), Nat.add_assoc,
    State.readByte_writeBytes_add hm hlen hk]

/-- A range-checked store of as many bytes as were checked completes, and where places `k` and `k + 1` of the run are the next
instruction's, its word is fetched next (20_memory.md R59). -/
theorem withDataRange_writeBytes_fetch {n k : Nat} {s : State} {vs : List Byte} (hlen : vs.length = n) (hm : s.mem.wf)
    (hr : InRange (s.ea 0) n) (hk : k + 1 < vs.length) (hpc : s.ea k = s.pc.toNat + 2) :
    ∃ t, withDataRange n s (.next (s.advance.writeBytes (s.ea 0) vs)) = .next t ∧
      t.fetch = some (wordOfBytes vs[k] vs[k + 1]) := by
  have hbound : s.ea 0 + k ≤ 0xFFF := hr k (by omega)
  have hea : s.ea k = s.ea 0 + k := rfl
  have hadvance : s.advance.pc.toNat = s.ea 0 + k := by
    simp [BitVec.toNat_add]
    omega
  exact ⟨_, withDataRange_inRange hr _,
    State.fetch_writeBytes (s := s.advance) hm (hlen ▸ hr.le (by omega)) hadvance hk⟩

theorem State.getElem_regsUpTo {s : State} {x : RegIdx} {k : Nat} (h : k < (s.regsUpTo x).length) :
    (s.regsUpTo x)[k] = s.reg (BitVec.ofNat 4 k) := by
  simp [State.regsUpTo]

/-- Settles O47: both instructions store a run of bytes after the range check. -/
theorem storedWordIsFetchedNext : Obligations.StoredWordIsFetchedNext := by
  intro s x k hm hpc
  constructor
  · intro hk hr
    have hlen := State.length_regsUpTo s x
    obtain ⟨t, ht, hfetch⟩ := withDataRange_writeBytes_fetch hlen hm hr (by omega) hpc
    refine ⟨t, ht, ?_⟩
    rw [hfetch, State.getElem_regsUpTo, State.getElem_regsUpTo]
  · intro hk hr
    have hlen := length_bcdDigits (s.reg x)
    obtain ⟨t, ht, hfetch⟩ := withDataRange_writeBytes_fetch hlen hm hr (by omega) hpc
    refine ⟨t, ht, hfetch.trans ?_⟩
    obtain rfl | rfl : k = 0 ∨ k = 1 := by omega
    · rfl
    · rfl

/-! ### The canonical form -/

/-- An address that does not read as after PowerOn is listed. -/
theorem Memory.mem_of_read_ne {m : Memory} {a : Nat} (h : m.read a ≠ initialByte a) : (a, m.read a) ∈ m := by
  induction m with
  | nil => exact absurd rfl h
  | cons c rest ih =>
    obtain ⟨b, v⟩ := c
    rw [Memory.read_cons] at h ⊢
    rcases eq_or_ne b a with rfl | hne
    · simp
    · rw [if_neg hne] at h ⊢
      exact List.mem_cons_of_mem _ (ih h)

/-- The entries of a canonical memory are the bytes that do not read as after PowerOn. -/
theorem Memory.mem_iff_read {m : Memory} (h : m.wf) (c : Host.Cell) :
    c ∈ m ↔ m.read c.1 = c.2 ∧ c.2 ≠ initialByte c.1 := by
  constructor
  · exact fun hc => ⟨Memory.read_mem h hc, (h.2 c hc).2⟩
  · rintro ⟨hread, hne⟩
    have hmem := Memory.mem_of_read_ne (m := m) (a := c.1) (hread ▸ hne)
    rwa [hread] at hmem

theorem Memory.wf_nodup {m : Memory} (h : m.wf) : m.Nodup :=
  h.1.imp fun hlt e => (congrArg Prod.fst e).not_lt hlt

/-- Settles O57: both list the same entries, in order of address. -/
theorem memoriesThatReadTheSameAreEqual : Obligations.MemoriesThatReadTheSameAreEqual := by
  intro m m' h h' hread
  have hmem : ∀ c, c ∈ m ↔ c ∈ m' := fun c => by rw [Memory.mem_iff_read h, Memory.mem_iff_read h', hread]
  have hperm : m.Perm m' := (List.perm_ext_iff_of_nodup (Memory.wf_nodup h) (Memory.wf_nodup h')).2 hmem
  exact hperm.eq_of_pairwise (fun _ _ _ _ hlt hgt => (lt_asymm hlt hgt).elim) h.1 h'.1

end Sys2Proof.Machine
end

section
/-! PROOF. Encoding (30_encoding.md): decoder and encoder are inverse on legal words, which words are illegal, the mask and match
table, and the assembler. -/

namespace Sys2Proof

/-! ### Decoding an encoded instruction -/

theorem decode_encode (i : Instr) : decode (encode i) = .ok i := by
  cases i with
  | cls | ret => rfl
  | jp nnn | call nnn | seImm x kk | sneImm x kk | seReg x y | sneReg x y | ldImm x kk | addImm x kk | ldI nnn | jpV0 nnn
  | rnd x kk | drw x y n => simp [encode, decode]
  | ldReg x y | orReg x y | andReg x y | xorReg x y | addReg x y | subReg x y | shr x y | subnReg x y | shl x y =>
    simp [encode, decode, decodeClass8]
  | skp x | sknp x => simp [encode, decode, decodeClassE]
  | ldXDt x | ldDtX x | ldStX x | ldXK x | addIX x | ldFX x | ldBX x | ldMemX x | ldXMem x =>
    simp [encode, decode, decodeClassF]

/-- Settles O1: the fields of an encoded word are the operands, and the decoder reads them back. -/
theorem decodeOfEncodeIsTheInstruction : Obligations.DecodeOfEncodeIsTheInstruction :=
  fun i _ => ⟨decode_encode i, fun rest => by rw [decodeBytes_bytesOfWord, decode_encode]; rfl⟩

/-- Settles O6: the decoder evaluated at each word. -/
theorem sampleWordsDecode : Obligations.SampleWordsDecode := by
  unfold Obligations.SampleWordsDecode
  decide

/-! ### What a word decodes to -/

/-- A word's class, filled with its `nnn`, is the word. -/
theorem or_nnnOf {w p : Word} {c : Nibble} (hc : classOf w = c) (hp : p = classWord c) : p ||| (nnnOf w).setWidth 16 = w := by
  subst hc hp
  exact (word_eq_nnn w).symm

theorem or_xOf_kkOf {w p : Word} {c : Nibble} (hc : classOf w = c) (hp : p = classWord c) :
    p ||| atX (xOf w) ||| (kkOf w).setWidth 16 = w := by
  subst hc hp
  exact (word_eq_xkk w).symm

theorem or_xOf_yOf_nOf {w p : Word} {c : Nibble} (hc : classOf w = c) (hp : p = classWord c) :
    p ||| atX (xOf w) ||| atY (yOf w) ||| (nOf w).setWidth 16 = w := by
  subst hc hp
  exact (word_eq_xyn w).symm

/-- A word's class and `n`, filled with its `x` and `y`, are the word. -/
theorem or_xOf_yOf {w p : Word} {c n : Nibble} (hc : classOf w = c) (hn : nOf w = n)
    (hp : p = classWord c ||| n.setWidth 16) : p ||| atX (xOf w) ||| atY (yOf w) = w := by
  subst hc hn hp
  refine Eq.trans ?_ (word_eq_xyn w).symm
  ac_rfl

theorem or_xOf {w p : Word} {c : Nibble} {kk : Byte} (hc : classOf w = c) (hk : kkOf w = kk)
    (hp : p = classWord c ||| kk.setWidth 16) : p ||| atX (xOf w) = w := by
  subst hc hk hp
  refine Eq.trans ?_ (word_eq_xkk w).symm
  ac_rfl

/-- The illegal words of 30_encoding.md R73, class by class. -/
def IllegalListed (w : Word) : Prop :=
  (classOf w = 0x0 ∧ w ≠ 0x00E0 ∧ w ≠ 0x00EE) ∨
  (classOf w = 0x5 ∧ nOf w ≠ 0) ∨
  (classOf w = 0x8 ∧ nOf w ∈ [0x8, 0x9, 0xA, 0xB, 0xC, 0xD, 0xF]) ∨
  (classOf w = 0x9 ∧ nOf w ≠ 0) ∨
  (classOf w = 0xE ∧ kkOf w ∉ [0x9E, 0xA1]) ∨
  (classOf w = 0xF ∧ kkOf w ∉ [0x07, 0x0A, 0x15, 0x18, 0x1E, 0x29, 0x33, 0x55, 0x65])

/-- The answer `d` is right for the word `w`: an instruction with that word, or illegal where the word is listed so. -/
def RightAnswer (w : Word) (d : Except DecodeError Instr) : Prop :=
  (∃ i, d = .ok i ∧ encode i = w) ∨ (d = .error (.illegal w) ∧ IllegalListed w)

theorem RightAnswer.ok {w : Word} {i : Instr} (h : encode i = w) : RightAnswer w (.ok i) := .inl ⟨i, rfl, h⟩

theorem RightAnswer.illegal {w : Word} (h : IllegalListed w) : RightAnswer w (.error (.illegal w)) := .inr ⟨rfl, h⟩

theorem decodeClass0_right {w : Word} (hc : classOf w = 0x0) : RightAnswer w (decodeClass0 w) := by
  unfold decodeClass0
  split
  next h => exact .ok h.symm
  split
  next h => exact .ok h.symm
  next h0 h1 => exact .illegal (by simp [IllegalListed, hc, h0, h1])

theorem decodeClass8_right {w : Word} (hc : classOf w = 0x8) : RightAnswer w (decodeClass8 w) := by
  unfold decodeClass8
  split
  case h_10 =>
    have hn : nOf w ∈ [0x8, 0x9, 0xA, 0xB, 0xC, 0xD, 0xF] := by
      generalize nOf w = n at *
      revert n
      decide
    exact .illegal (by simp_all [IllegalListed])
  all_goals
    next hn => exact .ok (or_xOf_yOf hc hn rfl)

theorem decodeClassE_right {w : Word} (hc : classOf w = 0xE) : RightAnswer w (decodeClassE w) := by
  unfold decodeClassE
  split
  case h_3 h1 h2 => exact .illegal (by simpa [IllegalListed, hc] using ⟨h1, h2⟩)
  all_goals
    next hk => exact .ok (or_xOf hc hk rfl)

theorem decodeClassF_right {w : Word} (hc : classOf w = 0xF) : RightAnswer w (decodeClassF w) := by
  unfold decodeClassF
  split
  case h_10 => exact .illegal (by simp_all [IllegalListed])
  all_goals
    next hk => exact .ok (or_xOf hc hk rfl)

/-- The decoder is right on every word: arm `h_(c + 1)` of its match is that of class `c`, and there is no other class. -/
theorem decode_right (w : Word) : RightAnswer w (decode w) := by
  unfold decode
  split
  case h_1 hc => exact decodeClass0_right hc
  case h_2 hc | h_3 hc | h_11 hc | h_12 hc => exact .ok (or_nnnOf hc rfl)
  case h_4 hc | h_5 hc | h_7 hc | h_8 hc | h_13 hc => exact .ok (or_xOf_kkOf hc rfl)
  case h_6 hc =>
    split
    · next hn => exact .ok (or_xOf_yOf hc hn rfl)
    · next hn => exact .illegal (by simpa [IllegalListed, hc] using hn)
  case h_9 hc => exact decodeClass8_right hc
  case h_10 hc =>
    split
    · next hn => exact .ok (or_xOf_yOf hc hn rfl)
    · next hn => exact .illegal (by simpa [IllegalListed, hc] using hn)
  case h_14 hc => exact .ok (or_xOf_yOf_nOf hc rfl)
  case h_15 hc => exact decodeClassE_right hc
  case h_16 hc => exact decodeClassF_right hc
  case h_17 =>
    exfalso
    generalize classOf w = c at *
    revert c
    decide

/-- No field selector of an instruction's word is among those listed as illegal. -/
theorem not_illegalListed_encode (i : Instr) : ¬IllegalListed (encode i) := by
  cases i <;> simp [IllegalListed, encode]

theorem encode_of_decode {w : Word} {i : Instr} (h : decode w = .ok i) : encode i = w := by
  rcases decode_right w with ⟨j, hj, hw⟩ | ⟨hd, _⟩
  · obtain rfl := Except.ok.inj (hj.symm.trans h)
    exact hw
  · cases hd.symm.trans h

/-- Settles O2: each branch of the decoder that answers an instruction read all of the word into its fields. -/
theorem encodeOfDecodeIsTheWord : Obligations.EncodeOfDecodeIsTheWord :=
  fun _ _ => encode_of_decode

theorem decode_illegal_iff (w : Word) : decode w = .error (.illegal w) ↔ IllegalListed w := by
  rcases decode_right w with ⟨i, hd, rfl⟩ | ⟨hd, hw⟩
  · simp [hd, not_illegalListed_encode i]
  · exact iff_of_true hd hw

/-- Settles O4: a listed word is the word of no instruction, and the decoder refuses only listed words. -/
theorem illegalWordsAreThoseListed : Obligations.IllegalWordsAreThoseListed :=
  decode_illegal_iff

/-! ### Assembling -/

theorem rowMatch (i : Instr) : Laws.RowMatch.Statement i := by
  open Laws.RowMatch in
  cases i
  exacts [cls, ret, jp _, call _, seImm _ _, sneImm _ _, seReg _ _, sneReg _ _, ldImm _ _, addImm _ _, ldReg _ _, orReg _ _,
    andReg _ _, xorReg _ _, addReg _ _, subReg _ _, shr _ _, subnReg _ _, shl _ _, ldI _, jpV0 _, rnd _ _, drw _ _ _, skp _,
    sknp _, ldXDt _, ldDtX _, ldStX _, ldXK _, addIX _, ldFX _, ldBX _, ldMemX _, ldXMem _]

theorem Instr.wellFormed (i : Instr) : i.WellFormed := (rowMatch i).1

/-- A well-formed line whose row is found assembles to the row's pattern with the operands filled in. -/
theorem AsmLine.assemble_of_wellFormed {l : AsmLine} {r : OpcodeRow} {f : Format} (h : l.WellFormed)
    (hr : opcodeTable.find? (fun r => r.1 == l.row) = some r) (hf : rowFormat l.row = some f) :
    l.assemble = .ok (fillPattern f r.2.1 l.filled) := by
  simp only [AsmLine.assemble, show l.check = none from h, hr, hf]

theorem AsmLine.assemble_of_check {l : AsmLine} {e : AsmError} (h : l.check = some e) : l.assemble = .error e := by
  simp only [AsmLine.assemble, h]

/-! A pattern filled with field values, an equation per format -/

theorem fillPattern_nnn (p : Word) (nnn : Addr) : fillPattern .fNnn p [nnn.toNat] = p ||| nnn.setWidth 16 := by
  simp [fillPattern]

theorem fillPattern_xkk (p : Word) (x : RegIdx) (kk : Byte) :
    fillPattern .fXkk p [x.toNat, kk.toNat] = p ||| atX x ||| kk.setWidth 16 := by
  simp [fillPattern, atX]

theorem fillPattern_xy (p : Word) (x y : RegIdx) : fillPattern .fXy p [x.toNat, y.toNat] = p ||| atX x ||| atY y := by
  simp [fillPattern, atX, atY]

theorem fillPattern_xyn (p : Word) (x y : RegIdx) (n : Nibble) :
    fillPattern .fXyn p [x.toNat, y.toNat, n.toNat] = p ||| atX x ||| atY y ||| n.setWidth 16 := by
  simp [fillPattern, atX, atY]

theorem fillPattern_x (p : Word) (x : RegIdx) : fillPattern .fX p [x.toNat] = p ||| atX x := by
  simp [fillPattern, atX]

/-- The check and the word depend on the row and the operands with an omitted `Vy` filled in. -/
theorem AsmLine.assemble_congr {l m : AsmLine} (hrow : l.row = m.row) (hfilled : l.filled = m.filled) :
    l.assemble = m.assemble := by
  simp only [AsmLine.assemble, AsmLine.check, hrow, hfilled]

/-- The line that names an instruction omits nothing. -/
theorem Instr.filled_toLine (i : Instr) : i.toLine.filled = i.toLine.operands := by
  cases i <;> rfl

theorem Instr.assemble_toLine_of {i : Instr} {r : OpcodeRow} {f : Format}
    (hr : opcodeTable.find? (fun r => r.1 == i.toLine.row) = some r) (hf : rowFormat i.toLine.row = some f)
    (h : fillPattern f r.2.1 i.toLine.filled = encode i) : i.toLine.assemble = .ok (encode i) :=
  (AsmLine.assemble_of_wellFormed i.wellFormed hr hf).trans (congrArg Except.ok h)

/-- The line that names an instruction assembles to its word. -/
theorem Instr.assemble_toLine (i : Instr) : i.toLine.assemble = .ok (encode i) := by
  cases i with
  | cls | ret => rfl
  | jp nnn | call nnn | ldI nnn | jpV0 nnn => exact assemble_toLine_of rfl rfl (fillPattern_nnn _ nnn)
  | seImm x kk | sneImm x kk | ldImm x kk | addImm x kk | rnd x kk => exact assemble_toLine_of rfl rfl (fillPattern_xkk _ x kk)
  | seReg x y | sneReg x y | ldReg x y | orReg x y | andReg x y | xorReg x y | addReg x y | subReg x y | shr x y | subnReg x y
  | shl x y => exact assemble_toLine_of rfl rfl (fillPattern_xy _ x y)
  | drw x y n => exact assemble_toLine_of rfl rfl (fillPattern_xyn _ x y n)
  | skp x | sknp x | ldXDt x | ldDtX x | ldStX x | ldXK x | addIX x | ldFX x | ldBX x | ldMemX x | ldXMem x =>
    exact assemble_toLine_of rfl rfl (fillPattern_x _ x)

/-- The number `v` is the value of a field of `width` bits. -/
def IsFieldValue (v width : Nat) : Prop := ∃ b : BitVec width, b.toNat = v

theorem isFieldValue_of_firstUnfit : ∀ {vs ws : List Nat}, vs.length = ws.length → firstUnfit vs ws = none →
    List.Forall₂ IsFieldValue vs ws
  | [], [], _, _ => .nil
  | v :: vs, w :: ws, hlen, h => by
    rw [firstUnfit] at h
    split at h
    · next hv => exact .cons ⟨.ofNatLT v hv, rfl⟩ (isFieldValue_of_firstUnfit (Nat.succ.inj hlen) h)
    · cases h

/-- A well-formed line has a row with a format, and its operands are values of the format's fields. -/
theorem AsmLine.WellFormed.operands {l : AsmLine} (h : l.WellFormed) :
    ∃ f, rowFormat l.row = some f ∧ List.Forall₂ IsFieldValue l.filled f.widths := by
  unfold AsmLine.WellFormed AsmLine.check at h
  split at h
  · cases h
  next f hf =>
    split at h
    · next hlen => exact ⟨f, hf, isFieldValue_of_firstUnfit hlen h⟩
    · cases h

/-- Every row with values for its format's fields is the line of an instruction. -/
theorem exists_toLine {row : Nat} {f : Format} {ops : List Nat} (hf : rowFormat row = some f)
    (hops : List.Forall₂ IsFieldValue ops f.widths) : ∃ i : Instr, i.toLine = ⟨row, ops⟩ := by
  unfold rowFormat at hf
  cases f with
  | fNone =>
    obtain _ | _ := hops
    split at hf <;> cases hf
    exacts [⟨.cls, rfl⟩, ⟨.ret, rfl⟩]
  | fNnn =>
    obtain _ | ⟨⟨nnn, rfl⟩, _ | _⟩ := hops
    split at hf <;> cases hf
    exacts [⟨.jp nnn, rfl⟩, ⟨.call nnn, rfl⟩, ⟨.ldI nnn, rfl⟩, ⟨.jpV0 nnn, rfl⟩]
  | fXkk =>
    obtain _ | ⟨⟨x, rfl⟩, _ | ⟨⟨kk, rfl⟩, _ | _⟩⟩ := hops
    split at hf <;> cases hf
    exacts [⟨.seImm x kk, rfl⟩, ⟨.sneImm x kk, rfl⟩, ⟨.ldImm x kk, rfl⟩, ⟨.addImm x kk, rfl⟩, ⟨.rnd x kk, rfl⟩]
  | fXy =>
    obtain _ | ⟨⟨x, rfl⟩, _ | ⟨⟨y, rfl⟩, _ | _⟩⟩ := hops
    split at hf <;> cases hf
    exacts [⟨.seReg x y, rfl⟩, ⟨.sneReg x y, rfl⟩, ⟨.ldReg x y, rfl⟩, ⟨.orReg x y, rfl⟩, ⟨.andReg x y, rfl⟩, ⟨.xorReg x y, rfl⟩,
      ⟨.addReg x y, rfl⟩, ⟨.subReg x y, rfl⟩, ⟨.shr x y, rfl⟩, ⟨.subnReg x y, rfl⟩, ⟨.shl x y, rfl⟩]
  | fXyn =>
    obtain _ | ⟨⟨x, rfl⟩, _ | ⟨⟨y, rfl⟩, _ | ⟨⟨n, rfl⟩, _ | _⟩⟩⟩ := hops
    split at hf <;> cases hf
    exact ⟨.drw x y n, rfl⟩
  | fX =>
    obtain _ | ⟨⟨x, rfl⟩, _ | _⟩ := hops
    split at hf <;> cases hf
    exacts [⟨.skp x, rfl⟩, ⟨.sknp x, rfl⟩, ⟨.ldXDt x, rfl⟩, ⟨.ldDtX x, rfl⟩, ⟨.ldStX x, rfl⟩, ⟨.ldXK x, rfl⟩, ⟨.addIX x, rfl⟩,
      ⟨.ldFX x, rfl⟩, ⟨.ldBX x, rfl⟩, ⟨.ldMemX x, rfl⟩, ⟨.ldXMem x, rfl⟩]

/-- Settles O5: a well-formed line is that of an instruction but for an omitted `Vy`, and assembles as that one does. -/
theorem assemblingFillsThePattern : Obligations.AssemblingFillsThePattern := by
  refine ⟨fun l h => ?_, fun l h => ?_, Instr.assemble_toLine⟩
  · obtain ⟨f, hf, hops⟩ := h.operands
    obtain ⟨i, hi⟩ := exists_toLine hf hops
    have hrow : l.row = i.toLine.row := by rw [hi]
    have hfilled : l.filled = i.toLine.filled := by rw [i.filled_toLine, hi]
    exact ⟨i, (AsmLine.assemble_congr hrow hfilled).trans i.assemble_toLine, hi⟩
  · obtain ⟨e, he⟩ := Option.ne_none_iff_exists'.1 h
    exact ⟨e, he, AsmLine.assemble_of_check he⟩

/-! ### The mask and match table -/

/-- Two different rows differ in a bit of the match that both masks keep. -/
theorem opcodeTable_disjoint : ∀ r ∈ opcodeTable, ∀ q ∈ opcodeTable, r.2.1 &&& q.2.2 = q.2.1 &&& r.2.2 → r = q := by decide

theorem opcodeTable_nodup : opcodeTable.Nodup := by decide

theorem OpcodeRow.and_mask_eq {r : OpcodeRow} {w : Word} (h : r.matches w = true) : w &&& r.2.2 = r.2.1 :=
  eq_of_beq h

/-- No two rows match one word: both would have the word's bits under both masks. -/
theorem row_unique {w : Word} {r q : OpcodeRow} (hr : r ∈ opcodeTable) (hq : q ∈ opcodeTable) (hrw : r.matches w = true)
    (hqw : q.matches w = true) : r = q := by
  refine opcodeTable_disjoint r hr q hq ?_
  rw [← OpcodeRow.and_mask_eq hrw, ← OpcodeRow.and_mask_eq hqw]
  ac_rfl

theorem filter_matches_of_mem {w : Word} {r : OpcodeRow} (hr : r ∈ opcodeTable) (hrw : r.matches w = true) :
    opcodeTable.filter (fun q => q.matches w) = [r] := by
  have hiff : ∀ q ∈ opcodeTable, q.matches w = decide (q = r) := fun q hq => by
    rw [Bool.eq_iff_iff, decide_eq_true_iff]
    exact ⟨fun hqw => row_unique hq hr hqw hrw, fun h => h ▸ hrw⟩
  rw [List.filter_congr hiff, List.filter_eq, List.count_eq_one_of_mem opcodeTable_nodup hr]
  rfl

/-- The bits that are 1 in the mask of a row of each format: those outside its fields (30_encoding.md R65, R72). -/
def Format.mask : Format → Word
  | .fNone => 0xFFFF
  | .fNnn | .fXkk | .fXyn => 0xF000
  | .fXy => 0xF00F
  | .fX => 0xF0FF

/-- The values of a word's fields under a format, in the order the operands are written. -/
def Format.fieldsOf (w : Word) : Format → List Nat
  | .fNone => []
  | .fNnn => [(nnnOf w).toNat]
  | .fXkk => [(xOf w).toNat, (kkOf w).toNat]
  | .fXy => [(xOf w).toNat, (yOf w).toNat]
  | .fXyn => [(xOf w).toNat, (yOf w).toNat, (nOf w).toNat]
  | .fX => [(xOf w).toNat]

theorem mask_of_mem : ∀ r ∈ opcodeTable, (rowFormat r.1).map Format.mask = some r.2.2 := by decide

theorem find_row_of_mem : ∀ r ∈ opcodeTable, opcodeTable.find? (fun q => q.1 == r.1) = some r := by decide

theorem and_F000 (w : Word) : w &&& 0xF000 = classWord (classOf w) := by
  ext i hi; simp [classWord, classOf]; interval_cases i <;> simp

theorem and_F00F (w : Word) : w &&& 0xF00F = classWord (classOf w) ||| (nOf w).setWidth 16 := by
  ext i hi; simp [classWord, classOf, nOf]; interval_cases i <;> simp

theorem and_F0FF (w : Word) : w &&& 0xF0FF = classWord (classOf w) ||| (kkOf w).setWidth 16 := by
  ext i hi; simp [classWord, classOf, kkOf]; interval_cases i <;> simp

theorem Format.isFieldValue_fieldsOf (w : Word) (f : Format) : List.Forall₂ IsFieldValue (f.fieldsOf w) f.widths := by
  cases f with
  | fNone => exact .nil
  | fNnn => exact .cons ⟨nnnOf w, rfl⟩ .nil
  | fXkk => exact .cons ⟨xOf w, rfl⟩ (.cons ⟨kkOf w, rfl⟩ .nil)
  | fXy => exact .cons ⟨xOf w, rfl⟩ (.cons ⟨yOf w, rfl⟩ .nil)
  | fXyn => exact .cons ⟨xOf w, rfl⟩ (.cons ⟨yOf w, rfl⟩ (.cons ⟨nOf w, rfl⟩ .nil))
  | fX => exact .cons ⟨xOf w, rfl⟩ .nil

/-- The bits under the mask, filled with the fields, are the word. -/
theorem fillPattern_fieldsOf (f : Format) (w : Word) : fillPattern f (w &&& f.mask) (f.fieldsOf w) = w := by
  cases f with
  | fNone => exact BitVec.and_allOnes
  | fNnn => exact (fillPattern_nnn _ _).trans (or_nnnOf rfl (and_F000 w))
  | fXkk => exact (fillPattern_xkk _ _ _).trans (or_xOf_kkOf rfl (and_F000 w))
  | fXy => exact (fillPattern_xy _ _ _).trans (or_xOf_yOf rfl rfl (and_F00F w))
  | fXyn => exact (fillPattern_xyn _ _ _ _).trans (or_xOf_yOf_nOf rfl (and_F000 w))
  | fX => exact (fillPattern_x _ _).trans (or_xOf rfl rfl (and_F0FF w))

/-- A word that a row matches is the word of an instruction: the row with the word's fields for operands. -/
theorem exists_encode_of_matches {w : Word} {r : OpcodeRow} (hr : r ∈ opcodeTable) (hrw : r.matches w = true) :
    ∃ i, encode i = w := by
  obtain ⟨f, hf, hmask⟩ := Option.map_eq_some_iff.1 (mask_of_mem r hr)
  obtain ⟨i, hi⟩ := exists_toLine hf (f.isFieldValue_fieldsOf w)
  have hassemble : i.toLine.assemble = .ok (fillPattern f r.2.1 i.toLine.filled) :=
    AsmLine.assemble_of_wellFormed i.wellFormed (hi ▸ find_row_of_mem r hr) (hi ▸ hf)
  rw [i.assemble_toLine, i.filled_toLine, hi, ← OpcodeRow.and_mask_eq hrw, ← hmask, fillPattern_fieldsOf] at hassemble
  exact ⟨i, Except.ok.inj hassemble⟩

/-- Settles O3: an instruction's row matches its word and no other row does; a word that some row matches is an instruction's. -/
theorem everyWordMatchesOneRowOrIsIllegal : Obligations.EveryWordMatchesOneRowOrIsIllegal := by
  refine ⟨fun w i h => ?_, fun w e h => ?_, fun w r hr q hq => row_unique hr hq⟩
  · obtain ⟨-, r, hr, hrow, hmatches⟩ := rowMatch i
    rw [encode_of_decode h] at hmatches
    rw [filter_matches_of_mem hr hmatches, ← hrow]
    rfl
  · refine ⟨Machine.decode_error h, List.filter_eq_nil_iff.2 fun r hr hmatches => ?_⟩
    obtain ⟨i, rfl⟩ := exists_encode_of_matches hr hmatches
    cases (decode_encode i).symm.trans h

end Sys2Proof
end

section
/-! PROOF. The Cycle (40_cycle.md): the step when the next operation is a Cycle, by what fetch-execute does, and which steps
answer a next state; and an instruction that touches no timer commutes with a Tick. -/

namespace Sys2Proof.Machine

open Sys2Proof

/-! ### A Tick and an instruction in either order -/

theorem State.writeBytes_tick (vs : List Byte) :
    ∀ (a : Nat) (s : State), (tick s).writeBytes a vs = tick (s.writeBytes a vs) := by
  induction vs with
  | nil => intro _ _; rfl
  | cons v vs ih => exact fun a s => ih (a + 1) (s.writeByte a v)

theorem State.setRegs_tick (vs : List Byte) :
    ∀ (k : Nat) (s : State), (tick s).setRegs k vs = tick (s.setRegs k vs) := by
  induction vs with
  | nil => intro _ _; rfl
  | cons v vs ih => exact fun k s => ih (k + 1) (s.setReg (BitVec.ofNat 4 k) v)

theorem State.advanceSkip_tick (c : Bool) (s : State) : (tick s).advanceSkip c = tick (s.advanceSkip c) := by
  cases c <;> rfl

/-- The range check reads no timer, and the fault latch is none of a Tick's fields. -/
theorem withDataRange_tick {n : Nat} {s t body body' : State} (hbody : body' = tick body)
    (h : withDataRange n s (.next body) = .next t) : withDataRange n (tick s) (.next body') = .next (tick t) := by
  subst hbody
  rcases withDataRange_next h with ⟨hr, rfl⟩ | ⟨a, ha, rfl⟩
  · exact withDataRange_inRange (s := tick s) hr _
  · exact withDataRange_lowest (s := tick s) ha _

theorem withKey_advanceSkip_tick {k : Byte} {s t : State} (skip : Bool → Bool)
    (h : withKey k s (fun down => .next (s.advanceSkip (skip down))) = .next t) :
    withKey k (tick s) (fun down => .next ((tick s).advanceSkip (skip down))) = .next (tick t) := by
  rcases withKey_next (body := fun down => s.advanceSkip (skip down)) h with ⟨hk, rfl⟩ | ⟨hk, rfl⟩
  · exact (withKey_le (s := tick s) hk _).trans (congrArg _ (State.advanceSkip_tick _ s))
  · exact withKey_gt (s := tick s) hk _

/-- Settles O55: each operation that an instruction other than a timer transfer is made of commutes with a Tick. -/
theorem tickCommutesWithOtherInstructions : Obligations.TickCommutesWithOtherInstructions := by
  intro i s t hi h
  cases i with
  | ldXDt x => exact absurd rfl (hi x).1
  | ldDtX x => exact absurd rfl (hi x).2.1
  | ldStX x => exact absurd rfl (hi x).2.2
  | ret =>
    rcases execRet_next h with ⟨h0, rfl⟩ | ⟨h0, ret, hret, rfl⟩
    · exact execRet_of_empty (s := tick s) h0
    · exact execRet_of_popSlot (s := tick s) h0 hret
  | call nnn =>
    rcases execCall_next h with ⟨hfull, rfl⟩ | ⟨hroom, rfl⟩
    · exact execCall_of_full (s := tick s) hfull nnn
    · exact execCall_of_room (s := tick s) hroom nnn
  | seImm _ _ | sneImm _ _ | seReg _ _ | sneReg _ _ =>
    obtain rfl := Host.Outcome.next.inj h
    exact congrArg _ (State.advanceSkip_tick _ s)
  | skp _ => exact withKey_advanceSkip_tick id h
  | sknp _ => exact withKey_advanceSkip_tick not h
  | drw _ _ _ => exact withDataRange_tick rfl h
  | ldBX _ | ldMemX _ => exact withDataRange_tick (State.writeBytes_tick _ _ s.advance) h
  | ldXMem _ => exact withDataRange_tick (State.setRegs_tick _ _ s.advance) h
  | ldXK x =>
    rcases execLdXK_next h with ⟨hk, rfl⟩ | ⟨k, hk, rfl⟩
    · exact execLdXK_of_noKey (s := tick t) hk x
    · exact execLdXK_of_leastKey (s := tick s) hk x
  | _ =>
    obtain rfl := Host.Outcome.next.inj h
    rfl

/-! ### Which steps answer a next state -/

/-- Settles O15: a scheduled operation answers a next state with a fault latched or not, and a free Cycle does with none. -/
theorem stepAlwaysReturns : Obligations.StepAlwaysReturns := by
  intro s hs hgo
  cases hi : s.inputs with
  | nil =>
    have hf : s.fault = none := hgo.resolve_right (not_not_intro hi)
    obtain ⟨t, ht, -⟩ := cycle_returns (s := { s with draws := s.draws + 1 }) hs.sp (Config.freeDraw s.draws)
    exact ⟨t, (step_nil hi hf).trans ht⟩
  | cons op rest =>
    obtain ⟨t, ht, -⟩ := perform_returns op (s := { s with inputs := rest }) hs.sp
    exact ⟨t, (step_cons hi).trans ht⟩

/-! ### A Cycle that executes an instruction -/

theorem decode_of_decodeBytes {hi lo : Byte} {rest rest' : List Byte} {i : Instr}
    (h : decodeBytes (hi :: lo :: rest) = .ok (i, rest')) : decode (wordOfBytes hi lo) = .ok i := by
  cases hd : decode (wordOfBytes hi lo) with
  | error e => simp [decodeBytes, hd] at h
  | ok j =>
    simp only [decodeBytes, hd, Except.ok.injEq, Prod.mk.injEq] at h
    rw [h.1]

theorem returnCycle_spec (r : Result) :
    (∀ t, r = .next t → returnCycle r = .next { t with out := some t.cycleResult }) ∧
    ∀ f, r = .fault f → returnCycle r = .fault f :=
  ⟨fun _ h => congrArg returnCycle h, fun _ h => congrArg returnCycle h⟩

theorem cycle_of_fetches {s : State} {i : Instr} (hf : s.fault = none) (h : Fetches s i) (r : Byte) :
    cycle r s = returnCycle (exec i { s with rnd := r }) :=
  (cycle_of_noFault hf r).trans (congrArg returnCycle (fetchExecute_of_fetches (s := { s with rnd := r }) h))

/-- Settles O7: the bytes at `pc` are the word fetched, so the Cycle, scheduled or free, is `exec` of the instruction with
`returnCycle` around it. -/
theorem stepRunsTheDecodedInstruction : Obligations.StepRunsTheDecodedInstruction := by
  intro s i hf _ hpc hbytes
  have hfetch : Fetches s i := ⟨_, State.fetch_of_le hpc, decode_of_decodeBytes hbytes⟩
  refine ⟨fun r rest hi => ?_, fun hi => ?_⟩
  · rw [(step_cons hi).trans (cycle_of_fetches (s := { s with inputs := rest }) hf hfetch r)]
    exact returnCycle_spec _
  · rw [(step_nil hi hf).trans (cycle_of_fetches (s := { s with draws := s.draws + 1 }) hf hfetch _)]
    exact returnCycle_spec _

/-! ### A Cycle that faults before an instruction -/

theorem fetchExecute_of_pc_gt {s : State} (h : 0xFFE < s.pc.toNat) :
    fetchExecute s = raise .fetchOutOfRange s.pc.toNat s := by
  simp [fetchExecute, State.fetch_none.2 h]

theorem fetchExecute_of_illegal {s : State} {w : Word} {e : DecodeError} (hw : s.fetch = some w) (hd : decode w = .error e) :
    fetchExecute s = raise .illegalInstruction w.toNat s := by
  simp [fetchExecute, hw, hd]

/-- A Cycle whose fetch-execute raises, whatever the model's own fields hold, latches the record, changes nothing else that the
host observes, and returns that record (60_exceptions.md R134). -/
theorem step_of_fetchExecute_raise {s : State} {cause : FaultCause} {info : Nat} (hf : s.fault = none) (hc : NextIsCycle s)
    (h : ∀ r d q, fetchExecute { s with draws := d, inputs := q, rnd := r } =
      raise cause info { s with draws := d, inputs := q, rnd := r }) :
    ∃ t, step s = .next t ∧ t.observe = { s.observe with fault := some ⟨cause, s.pc, info⟩ } ∧
      t.out = some (.fault ⟨cause, s.pc, info⟩) := by
  obtain ⟨r, d, q, hstep⟩ := step_of_nextIsCycle hc hf
  have hcycle : step s = returnCycle (raise cause info { s with draws := d, inputs := q, rnd := r }) := by
    rw [hstep, cycle_of_noFault (s := { s with draws := d, inputs := q }) hf, h]
  exact ⟨_, hcycle, rfl, rfl⟩

/-- Settles O9: with `pc` above 0xFFE nothing is fetched and fetch-execute raises. -/
theorem fetchAboveMemoryFaults : Obligations.FetchAboveMemoryFaults :=
  fun s hf hc hpc => step_of_fetchExecute_raise hf hc fun r d q =>
    fetchExecute_of_pc_gt (s := { s with draws := d, inputs := q, rnd := r }) hpc

/-- Settles O10: with the decoder refusing the word, fetch-execute raises. -/
theorem illegalWordFaults : Obligations.IllegalWordFaults :=
  fun s _ hf hc hw hd => step_of_fetchExecute_raise hf hc fun r d q =>
    fetchExecute_of_illegal (s := { s with draws := d, inputs := q, rnd := r }) hw hd

end Sys2Proof.Machine
end

section
/-! PROOF. The display (41_display.md): a drawn bit toggles one pixel, a sprite the pixels it covers, and drawing it twice none. -/

namespace Sys2Proof.Machine

open Sys2Proof

/-! ### Toggling the pixels of a set -/

/-- From `dc` to `dc'`, each a display with the collision flag so far, exactly the pixels that `covers` holds of are toggled, and
the flag is raised where one of them was on (41_display.md R94, R96). -/
def Toggles (covers : Fin 32 → Fin 64 → Prop) (dc dc' : Display × Bool) : Prop :=
  (∀ r c, dc'.1.pixel r c = true ↔ ¬(dc.1.pixel r c = true ↔ covers r c)) ∧
  (dc'.2 = true ↔ dc.2 = true ∨ ∃ r c, dc.1.pixel r c = true ∧ covers r c)

theorem Toggles.of_iff {A B : Fin 32 → Fin 64 → Prop} {dc dc' : Display × Bool} (h : Toggles A dc dc')
    (hAB : ∀ r c, A r c ↔ B r c) : Toggles B dc dc' := by
  obtain rfl : A = B := funext₂ fun r c => propext (hAB r c)
  exact h

theorem Toggles.refl_of_not {covers : Fin 32 → Fin 64 → Prop} (h : ∀ r c, ¬covers r c) (dc : Display × Bool) :
    Toggles covers dc dc := by
  simp [Toggles, h]

/-- Two drawings one after the other toggle the pixels of both, where no pixel is in both: the second finds its pixels as they
were before the first. -/
theorem Toggles.trans {A B : Fin 32 → Fin 64 → Prop} {dc dc' dc'' : Display × Bool} (hA : Toggles A dc dc')
    (hB : Toggles B dc' dc'') (hdisj : ∀ r c, A r c → ¬B r c) : Toggles (fun r c => A r c ∨ B r c) dc dc'' := by
  obtain ⟨hpixA, hflagA⟩ := hA
  obtain ⟨hpixB, hflagB⟩ := hB
  have hkept (r c) : dc'.1.pixel r c = true ∧ B r c ↔ dc.1.pixel r c = true ∧ B r c := by
    rw [hpixA]
    have := hdisj r c
    tauto
  constructor
  · intro r c
    rw [hpixB, hpixA]
    have := hdisj r c
    tauto
  · simp only [hflagB, hflagA, hkept, and_or_left, exists_or, or_assoc]

/-! ### The pixels of a sprite -/

theorem drawBit_toggles (r : Fin 32) (c : Fin 64) (bit : Bool) (dc : Display × Bool) :
    Toggles (fun r' c' => r' = r ∧ c' = c ∧ bit = true) dc (drawBit r c bit dc) := by
  constructor
  · intro r' c'
    rw [drawBit, Display.pixel_setPixel]
    split
    · next h =>
      obtain ⟨rfl, rfl⟩ := h
      cases bit <;> simp
    · next h => tauto
  · simp [drawBit, and_comm]

/-- The bits 0 to `left - 1` of a sprite byte drawn in display row `row` cover the pixel in row `r`, column `c`. -/
def BitsCover (vx : Byte) (row : Fin 32) (sprite : Byte) (left : Nat) (r : Fin 32) (c : Fin 64) : Prop :=
  r = row ∧ ∃ k < left, c = spriteCol vx (7 - k) ∧ sprite.getLsbD k = true

theorem bitsCover_succ {vx : Byte} {row : Fin 32} {sprite : Byte} {left : Nat} {r : Fin 32} {c : Fin 64} :
    BitsCover vx row sprite (left + 1) r c ↔
      (r = row ∧ c = spriteCol vx (7 - left) ∧ sprite.getLsbD left = true) ∨ BitsCover vx row sprite left r c := by
  rw [BitsCover, Nat.exists_lt_succ_right, or_comm, and_or_left]
  rfl

/-- Eight columns in a row are distinct modulo 64. -/
theorem spriteCol_inj {vx : Byte} {b b' : Nat} (hb : b < 8) (hb' : b' < 8) (h : spriteCol vx b = spriteCol vx b') : b = b' := by
  have : (vx.toNat + b) % 64 = (vx.toNat + b') % 64 := congrArg Fin.val h
  omega

/-- The 32 rows from a vertical coordinate on are distinct modulo 32. -/
theorem spriteRow_inj {vy : Byte} {r r' : Nat} (hr : r < 32) (hr' : r' < 32) (h : spriteRow vy r = spriteRow vy r') : r = r' := by
  have : (vy.toNat + r) % 32 = (vy.toNat + r') % 32 := congrArg Fin.val h
  omega

theorem drawBits_toggles (vx : Byte) (row : Fin 32) (sprite : Byte) {left : Nat} (hleft : left ≤ 8) (dc : Display × Bool) :
    Toggles (BitsCover vx row sprite left) dc (drawBits vx row sprite left dc) := by
  induction left generalizing dc with
  | zero => exact Toggles.refl_of_not (by simp [BitsCover]) dc
  | succ left ih =>
    refine ((drawBit_toggles row (spriteCol vx (7 - left)) (sprite.getLsbD left) dc).trans (ih (by omega) _) ?_).of_iff
      fun r c => bitsCover_succ.symm
    rintro r c ⟨-, rfl, -⟩ ⟨-, k, hk, hcol, -⟩
    have := spriteCol_inj (by omega) (by omega) hcol
    omega

/-- The sprite bytes drawn from sprite row `r` on cover the pixel in row `row`, column `col`. -/
def RowsCover (vx vy : Byte) (r : Nat) (sprites : List Byte) (row : Fin 32) (col : Fin 64) : Prop :=
  ∃ k sprite, sprites[k]? = some sprite ∧ BitsCover vx (spriteRow vy (r + k)) sprite 8 row col

theorem rowsCover_cons {vx vy : Byte} {r : Nat} {sprite : Byte} {rest : List Byte} {row : Fin 32} {col : Fin 64} :
    RowsCover vx vy r (sprite :: rest) row col ↔
      BitsCover vx (spriteRow vy r) sprite 8 row col ∨ RowsCover vx vy (r + 1) rest row col := by
  rw [RowsCover, ← Nat.or_exists_add_one]
  simp [RowsCover, Nat.add_assoc, Nat.add_comm 1]

theorem drawRows_toggles (vx vy : Byte) {sprites : List Byte} {r : Nat} (hr : r + sprites.length ≤ 32) (dc : Display × Bool) :
    Toggles (RowsCover vx vy r sprites) dc (drawRows vx vy r sprites dc) := by
  induction sprites generalizing r dc with
  | nil => exact Toggles.refl_of_not (by simp [RowsCover]) dc
  | cons sprite rest ih =>
    rw [List.length_cons] at hr
    refine ((drawBits_toggles vx (spriteRow vy r) sprite le_rfl dc).trans (ih (by omega) _) ?_).of_iff
      fun _ _ => rowsCover_cons.symm
    rintro row col ⟨rfl, -⟩ ⟨k, _, hk, hrow, -⟩
    have hlt := (List.getElem?_eq_some_iff.1 hk).1
    have := spriteRow_inj (by omega) (by omega) hrow
    omega

/-- The bytes read from `base` cover what the spec's sprite covers; its bit `b` counts from the left, bit 7 of the byte. -/
theorem rowsCover_readBytes {s : State} {base n : Nat} {vx vy : Byte} {row : Fin 32} {col : Fin 64} :
    RowsCover vx vy 0 (s.readBytes base n) row col ↔ SpriteCovers s base n vx.toNat vy.toNat row.val col.val := by
  constructor
  · rintro ⟨r, sprite, hr, rfl, k, hk, rfl, hbit⟩
    obtain ⟨hlt, rfl⟩ := List.getElem?_eq_some_iff.1 hr
    rw [State.getElem_readBytes] at hbit
    rw [State.length_readBytes] at hlt
    refine ⟨r, 7 - k, hlt, by omega, by rw [Nat.zero_add]; rfl, rfl, ?_⟩
    rwa [show 7 - (7 - k) = k by omega]
  · rintro ⟨r, b, hr, hb, hrow, hcol, hbit⟩
    refine ⟨r, s.readByte (base + r), ?_, Fin.ext (by rw [Nat.zero_add]; exact hrow), 7 - b, by omega, ?_, hbit⟩
    · simp [State.readBytes, hr]
    · rw [show 7 - (7 - b) = b by omega]
      exact Fin.ext hcol

/-! ### The instructions -/

/-- Settles O22: the display left is `Display.off`, and the advance writes `pc` only. -/
theorem clsClearsTheDisplay : Obligations.ClsClearsTheDisplay :=
  ⟨decode_encode .cls, fun _ => ⟨_, rfl, rfl, Display.pixel_off, rfl⟩⟩

/-- Dxyn with its sprite in memory completes: it toggles what the sprite covers and leaves the collision flag in `VF`. -/
theorem exec_drw_inRange (x y : RegIdx) {n : Nibble} {s : State} (h : InRange (s.ea 0) n.toNat) :
    ∃ dc, exec (.drw x y n) s = .next ({ s.advance with disp := dc.1 }.setReg VF (b2n dc.2)) ∧
      Toggles (fun r c => SpriteCovers s (s.ea 0) n.toNat (s.reg x).toNat (s.reg y).toNat r.val c.val) (s.disp, false) dc := by
  have hfits : 0 + (s.readBytes (s.ea 0) n.toNat).length ≤ 32 := by
    have := n.isLt
    rw [State.length_readBytes]
    omega
  exact ⟨_, withDataRange_inRange h _,
    (drawRows_toggles (s.reg x) (s.reg y) hfits (s.disp, false)).of_iff fun _ _ => rowsCover_readBytes⟩

/-- Settles O23: the sprite's pixels are distinct, so its bits toggle each of them once. -/
theorem drwXorsTheSprite : Obligations.DrwXorsTheSprite := by
  intro x y n
  refine ⟨decode_encode (.drw x y n), fun s h => ?_, fun s a h => ⟨_, withDataRange_lowest h _, rfl⟩⟩
  obtain ⟨dc, hexec, hpixels, hflag⟩ := exec_drw_inRange x y h
  have hvf : ({ s.advance with disp := dc.1 }.setReg VF (b2n dc.2)).reg VF = b2n dc.2 := State.reg_setReg_self ..
  refine ⟨_, hexec, rfl, hpixels, fun hon => ?_, fun hoff => ?_, rfl, fun r hr => State.reg_setReg_ne _ hr _⟩
  · rw [hvf, hflag.2 (.inr hon), b2n_true]
  · have hfalse : dc.2 = false := by
      rw [Bool.eq_false_iff, Ne, hflag]
      simpa using hoff
    rw [hvf, hfalse, b2n_false]

/-- Settles O24: the second drawing covers the same pixels, since Dxyn leaves memory, `I`, `Vx` and `Vy` as they are. -/
theorem drawingTwiceRestoresTheDisplay : Obligations.DrawingTwiceRestoresTheDisplay := by
  intro x y n s hx hy h
  obtain ⟨-, hdraw, -⟩ := drwXorsTheSprite x y n
  obtain ⟨t, ht, -, hpixels, -, -, heq, hregs⟩ := hdraw s h
  have hmem : t.mem = s.mem := by rw [heq]
  have hea : t.ea 0 = s.ea 0 := by rw [heq]; rfl
  obtain ⟨u, hu, -, hpixels', -⟩ := hdraw t (hea ▸ h)
  refine ⟨t, u, ht, hu, Display.ext_pixel fun r c => Bool.eq_iff_iff.2 ?_⟩
  have hcovers : SpriteCovers t (t.ea 0) n.toNat (t.reg x).toNat (t.reg y).toNat r.val c.val ↔
      SpriteCovers s (s.ea 0) n.toNat (s.reg x).toNat (s.reg y).toNat r.val c.val := by
    simp only [SpriteCovers, State.readByte, hmem, hea, hregs x hx, hregs y hy]
  rw [hpixels', hpixels, hcovers]
  tauto

end Sys2Proof.Machine
end

section
/-! PROOF. The control transfers (42_control_flow.md): what a push leaves for a pop, where a skip goes, and the jumps, calls and
returns. -/

namespace Sys2Proof.Machine

open Sys2Proof

/-! ### The stack -/

/-- A push writes the slot numbered `SP` and no other (10_state.md R32). -/
theorem State.get_stack_push (s : State) (ret : Word) (j : Fin 16) :
    (s.push ret).stack.get j = if j.val = s.SP.toNat then ret else s.stack.get j := by
  simp only [State.push_stack, Vector.get_eq_getElem, Vector.getElem_setIfInBounds, @eq_comm _ j.val]

/-- A pop on the stack and `SP` a push left reads the pushed address. -/
theorem State.popSlot_of_push {s t : State} {ret : Word} (hroom : s.SP.toNat < 16) (hSP : t.SP = s.SP + 1)
    (hstack : t.stack = (s.push ret).stack) : t.popSlot = some ret := by
  simp [State.popSlot, hSP, hstack, hroom]

/-! ### The skip -/

theorem onlyPc_advanceSkip (s : State) (c : Bool) : OnlyPc s (s.advanceSkip c) := State.advanceSkip_eq s c ▸ rfl

/-- A skip on equality (42_control_flow.md R100, R102). -/
theorem advanceSkip_beq (s : State) (a b : Byte) :
    OnlyPc s (s.advanceSkip (a == b)) ∧ (s.advanceSkip (a == b)).pc = if a = b then s.pc + 4 else s.pc + 2 :=
  ⟨onlyPc_advanceSkip s _, by simp [BitVec.add_assoc]⟩

/-- A skip on difference (42_control_flow.md R101, R103). -/
theorem advanceSkip_bne (s : State) (a b : Byte) :
    OnlyPc s (s.advanceSkip (a != b)) ∧ (s.advanceSkip (a != b)).pc = if a = b then s.pc + 2 else s.pc + 4 := by
  refine ⟨onlyPc_advanceSkip s _, ?_⟩
  by_cases h : a = b <;> simp [h, BitVec.add_assoc]

/-! ### The instructions -/

/-- Settles O29: the return pops the slot the call pushed, and takes off the one the call put on. -/
theorem returnGoesBackAfterTheCall : Obligations.ReturnGoesBackAfterTheCall := by
  intro nnn s hroom
  refine ⟨_, execCall_of_room hroom nnn, fun t' (hSP : t'.SP = s.SP + 1) hstack => ?_⟩
  have hslot : t'.popSlot = some (s.pc + 2) := State.popSlot_of_push hroom hSP hstack
  have h0 : t'.SP ≠ 0 := by rw [hSP]; bv_omega
  refine ⟨_, execRet_of_popSlot h0 hslot, rfl, ?_⟩
  rw [State.jump_SP, State.popSP_SP, hSP, BitVec.add_sub_cancel]

/-- Settles O25: below 17 the top slot exists, and the pop writes `SP` and `pc` only. -/
theorem retPopsTheReturnAddress : Obligations.RetPopsTheReturnAddress := by
  refine ⟨decode_encode .ret, fun s h0 hle => ?_, fun s h => ⟨_, execRet_of_empty h, rfl⟩⟩
  obtain ⟨hlt, hslot⟩ := State.popSlot_of_le h0 hle
  have hSP : (s.SP - 1).toNat = s.SP.toNat - 1 := by bv_omega
  exact ⟨_, execRet_of_popSlot h0 hslot, hSP, by simp [hlt], rfl⟩

/-- Settles O27: `nnn` extended to 16 bits keeps its value. -/
theorem jpSetsThePc : Obligations.JpSetsThePc :=
  fun nnn => ⟨decode_encode (.jp nnn), fun _ => ⟨_, rfl, toNat_zextAddr nnn, rfl⟩⟩

/-- Settles O28: with room the call pushes and jumps, and on a full stack it takes the fault. -/
theorem callPushesTheReturnAddress : Obligations.CallPushesTheReturnAddress := by
  refine fun nnn => ⟨decode_encode (.call nnn), fun s hroom => ?_, fun s hfull => ⟨_, execCall_of_full hfull nnn, rfl⟩⟩
  have hSP : (s.SP + 1).toNat = s.SP.toNat + 1 := by bv_omega
  exact ⟨_, execCall_of_room hroom nnn, toNat_zextAddr nnn, hSP, State.get_stack_push s (s.pc + 2), rfl⟩

/-- Settles O30: the skips on `Vx` and the immediate. -/
theorem skipsOnAnImmediate : Obligations.SkipsOnAnImmediate :=
  fun x kk => ⟨decode_encode (.seImm x kk), decode_encode (.sneImm x kk), fun s =>
    ⟨⟨_, rfl, advanceSkip_beq s _ _⟩, ⟨_, rfl, advanceSkip_bne s _ _⟩⟩⟩

/-- Settles O31: the skips on `Vx` and `Vy`. -/
theorem skipsOnTwoRegisters : Obligations.SkipsOnTwoRegisters :=
  fun x y => ⟨decode_encode (.seReg x y), decode_encode (.sneReg x y), fun s =>
    ⟨⟨_, rfl, advanceSkip_beq s _ _⟩, ⟨_, rfl, advanceSkip_bne s _ _⟩⟩⟩

/-- Settles O32: 4095 + 255 fits in 16 bits, so the sum is exact. -/
theorem jpV0AddsV0 : Obligations.JpV0AddsV0 :=
  fun nnn => ⟨decode_encode (.jpV0 nnn), fun s => ⟨_, rfl, toNat_zextAddr_add nnn (s.reg 0), rfl⟩⟩

end Sys2Proof.Machine
end

section
/-! PROOF. Register arithmetic (43_alu.md): a result written to `Vx` alone, and a result written together with a flag. -/

namespace Sys2Proof.Machine

open Sys2Proof

/-! ### One register written -/

theorem onlyRegs_advance_setReg (s : State) (x : RegIdx) (v : Byte) : OnlyRegs [x] s (s.advance.setReg x v) :=
  ⟨rfl, fun _ hr => State.reg_setReg_ne _ (List.ne_of_not_mem_cons hr) v⟩

/-- Settles O33: the advance and one register write, of the immediate. -/
theorem ldImmLoadsTheByte : Obligations.LdImmLoadsTheByte :=
  fun x kk => ⟨decode_encode (.ldImm x kk), fun s =>
    ⟨_, rfl, rfl, State.reg_setReg_self _ x kk, onlyRegs_advance_setReg s x kk⟩⟩

/-- Settles O34: the sum of two bytes is theirs modulo 256. -/
theorem addImmWraps : Obligations.AddImmWraps := by
  refine fun x kk => ⟨decode_encode (.addImm x kk), fun s => ⟨_, rfl, rfl, ?_, onlyRegs_advance_setReg s x _⟩⟩
  rw [State.reg_setReg_self, BitVec.toNat_add]

/-- Settles O35: the advance and one register write, of the old `Vy`. -/
theorem ldRegCopies : Obligations.LdRegCopies :=
  fun x y => ⟨decode_encode (.ldReg x y), fun s =>
    ⟨_, rfl, rfl, State.reg_setReg_self _ x _, onlyRegs_advance_setReg s x _⟩⟩

theorem State.getLsbD_reg_setReg_self (s : State) (x : RegIdx) (v : Byte) (b : Nat) :
    ((s.setReg x v).reg x).getLsbD b = v.getLsbD b := by
  rw [State.reg_setReg_self]

/-- Settles O36: each operation on bytes is that operation on every bit. -/
theorem logicIsBitwise : Obligations.LogicIsBitwise :=
  fun x y => ⟨decode_encode (.orReg x y), decode_encode (.andReg x y), decode_encode (.xorReg x y), fun s =>
    ⟨⟨_, rfl, rfl, onlyRegs_advance_setReg s x _, fun _ => (State.getLsbD_reg_setReg_self ..).trans BitVec.getLsbD_or⟩,
    ⟨_, rfl, rfl, onlyRegs_advance_setReg s x _, fun _ => (State.getLsbD_reg_setReg_self ..).trans BitVec.getLsbD_and⟩,
    ⟨_, rfl, rfl, onlyRegs_advance_setReg s x _, fun _ => (State.getLsbD_reg_setReg_self ..).trans BitVec.getLsbD_xor⟩⟩⟩

/-- Settles O41: the draw is the state's own `rnd`, and AND on bytes is AND on every bit. -/
theorem rndAndsTheDraw : Obligations.RndAndsTheDraw :=
  fun x kk => ⟨decode_encode (.rnd x kk), fun s r =>
    ⟨_, rfl, rfl, fun _ => (State.getLsbD_reg_setReg_self ..).trans BitVec.getLsbD_and,
      onlyRegs_advance_setReg { s with rnd := r } x _⟩⟩

/-! ### The order of the flag and result writes -/

theorem State.setReg_comm (s : State) {i j : RegIdx} (h : i ≠ j) (v w : Byte) :
    (s.setReg i v).setReg j w = (s.setReg j w).setReg i v := by
  unfold State.setReg
  rw [Vector.set_comm _ _ fun e => h (BitVec.eq_of_toNat_eq e)]

/-- Settles O37: the two writes commute but for the destination `VF`, where the later one stays. -/
theorem flagWriteOrderMattersForVfOnly : Obligations.FlagWriteOrderMattersForVfOnly := by
  refine ⟨rfl, fun x flag res s => ⟨fun hx => ?_, fun hx => ?_, ?_⟩⟩
  · exact State.setReg_comm s hx.symm (b2n flag) res
  · exact ⟨reg_writeFlagResult_dest _ hx flag res s, reg_writeFlagResult_flag _ hx flag res s⟩
  · rintro rfl
    exact ⟨reg_writeFlagResult_vf .flagThenResult flag res s, reg_writeFlagResult_vf .resultThenFlag flag res s⟩

@[simp] theorem writeFlagResult_pc (order : Config.FlagWriteOrder) (x : RegIdx) (flag : Bool) (res : Byte) (s : State) :
    (writeFlagResult order x flag res s).pc = s.pc := by
  rw [writeFlagResult_eq]

theorem onlyRegs_writeFlagResult_advance (order : Config.FlagWriteOrder) (x : RegIdx) (flag : Bool) (res : Byte) (s : State) :
    OnlyRegs [x, VF] s (writeFlagResult order x flag res s.advance) := by
  refine ⟨by rw [writeFlagResult_eq]; rfl, fun r hr => ?_⟩
  obtain ⟨hx, hf⟩ : r ≠ x ∧ r ≠ VF := by simpa using hr
  exact reg_writeFlagResult_other order hx hf flag res s.advance

/-- The shared end of the flag-writing instructions, for every destination (43_alu.md R106); `h` rewrites the model's flag and
result as the spec's. -/
theorem finishFlag_flagAndResult (x : RegIdx) {fr : Bool × Byte} {flag : Bool} {res : Byte} (h : fr = (flag, res)) (s : State) :
    ∃ t, finishFlag x fr s = .next t ∧ FlagAndResult x flag res s t := by
  subst h
  refine ⟨_, rfl, writeFlagResult_pc .., onlyRegs_writeFlagResult_advance _ x flag res s, fun hx => ?_, ?_⟩
  · exact ⟨reg_writeFlagResult_dest _ hx flag res _, reg_writeFlagResult_flag _ hx flag res _⟩
  · rintro rfl
    exact reg_writeFlagResult_vf _ flag res _

/-! ### The flag computations, on natural numbers -/

theorem addFlag_eq (a b : Byte) : addFlag a b = (decide (255 < a.toNat + b.toNat), a + b) := by
  rw [addFlag, BitVec.ofNat_add, BitVec.ofNat_toNat, BitVec.ofNat_toNat, BitVec.setWidth_eq, BitVec.setWidth_eq]

theorem subFlag_eq (a b : Byte) :
    subFlag a b = (decide (b.toNat ≤ a.toNat), BitVec.ofNat 8 (256 + a.toNat - b.toNat)) := by
  have hdiff : a - b = BitVec.ofNat 8 (256 + a.toNat - b.toNat) := by bv_omega
  rw [subFlag, hdiff]

theorem shrFlag_eq (v : Byte) : shrFlag v = (decide (v.toNat % 2 = 1), BitVec.ofNat 8 (v.toNat / 2)) := by
  have hhalf : v >>> 1 = BitVec.ofNat 8 (v.toNat / 2) := by bv_omega
  have hbit : v.getLsbD 0 = decide (v.toNat % 2 = 1) := Nat.testBit_zero ..
  rw [shrFlag, hhalf, hbit]

theorem shlFlag_eq (v : Byte) : shlFlag v = (decide (128 ≤ v.toNat), BitVec.ofNat 8 (2 * v.toNat)) := by
  have hdouble : v <<< 1 = BitVec.ofNat 8 (2 * v.toNat) := by bv_omega
  have hbit : v.getLsbD 7 = decide (128 ≤ v.toNat) := BitVec.msb_eq_decide v
  rw [shlFlag, hdouble, hbit]

/-! ### The flag-writing instructions -/

/-- Settles O38: the sum with its carry, and the two writes. -/
theorem addRegCarries : Obligations.AddRegCarries :=
  fun x y => ⟨decode_encode (.addReg x y), fun s => finishFlag_flagAndResult x (addFlag_eq _ _) s⟩

/-- Settles O39: both subtractions are `subFlag`, with the operands in either order. -/
theorem subtractionsFlagNoBorrow : Obligations.SubtractionsFlagNoBorrow :=
  fun x y => ⟨decode_encode (.subReg x y), decode_encode (.subnReg x y), fun s =>
    ⟨finishFlag_flagAndResult x (subFlag_eq (s.reg x) (s.reg y)) s,
      finishFlag_flagAndResult x (subFlag_eq (s.reg y) (s.reg x)) s⟩⟩

/-- Settles O40: the shifts as a half and a double, with the bit shifted out. -/
theorem shiftsFlagTheBitOut : Obligations.ShiftsFlagTheBitOut :=
  fun x y => ⟨decode_encode (.shr x y), decode_encode (.shl x y), fun s =>
    ⟨finishFlag_flagAndResult x (shrFlag_eq _) s, finishFlag_flagAndResult x (shlFlag_eq _) s⟩⟩

end Sys2Proof.Machine
end

section
/-! PROOF. The address register and memory transfers (44_index_memory.md): loads of `I`, a range-checked run of bytes stored from
`I` on, and a run of bytes loaded into the registers. -/

namespace Sys2Proof.Machine

open Sys2Proof

/-! ### The address register -/

/-- Settles O42: `nnn` extended to 16 bits keeps its value. -/
theorem ldILoadsTheAddress : Obligations.LdILoadsTheAddress :=
  fun nnn => ⟨decode_encode (.ldI nnn), fun _ => ⟨_, rfl, rfl, toNat_zextAddr nnn, rfl⟩⟩

theorem toNat_add_setWidth (i : Word) (v : Byte) : (i + v.setWidth 16).toNat = (i.toNat + v.toNat) % 65536 := by
  bv_omega

/-- The highest glyph address, 255 * 5, fits in 16 bits (44_index_memory.md R121). -/
theorem toNat_glyphAddress (v : Byte) : (glyphAddress v).toNat = v.toNat * 5 :=
  Nat.mod_eq_of_lt (by omega)

/-- Settles O43: both instructions advance and write `I` only. -/
theorem addressArithmetic : Obligations.AddressArithmetic :=
  fun x => ⟨decode_encode (.addIX x), decode_encode (.ldFX x), fun s =>
    ⟨⟨_, rfl, rfl, toNat_add_setWidth s.I (s.reg x), rfl⟩, ⟨_, rfl, rfl, toNat_glyphAddress (s.reg x), rfl⟩⟩⟩

/-! ### A run of bytes stored -/

theorem onlyBytes_advance_writeBytes {s : State} {a : Nat} {vs : List Byte} (hm : s.mem.wf)
    (hlen : a + vs.length ≤ Config.memSize) : OnlyBytes a vs.length s (s.advance.writeBytes a vs) := by
  refine ⟨?_, fun b hb => ?_⟩
  · rw [State.writeBytes_pc]
    exact State.advance_writeBytes_eq s a vs
  · rw [State.readByte_writeBytes vs a s.advance b hm hlen, dif_neg (by omega), State.readByte_advance]

/-- A range-checked store of as many bytes as were checked puts each at its address and changes no other byte. -/
theorem withDataRange_writeBytes_stores {n : Nat} {s : State} {vs : List Byte} (hlen : vs.length = n) (hn : 0 < n)
    (hm : s.mem.wf) (hr : InRange (s.ea 0) n) :
    ∃ t, withDataRange n s (.next (s.advance.writeBytes (s.ea 0) vs)) = .next t ∧ t.pc = s.pc + 2 ∧
      (∀ (k : Nat) (hk : k < vs.length), t.readByte (s.ea k) = vs[k]) ∧ OnlyBytes (s.ea 0) n s t := by
  subst hlen
  have hle := hr.le hn
  exact ⟨_, withDataRange_inRange hr _, State.writeBytes_pc .., fun _ hk =>
    State.readByte_writeBytes_add (s := s.advance) hm hle hk, onlyBytes_advance_writeBytes hm hle⟩

/-- A digit fits in a byte. -/
theorem toNat_bcdDigits (v : Byte) : (bcdDigits v)[0].toNat = v.toNat / 100 ∧ (bcdDigits v)[1].toNat = v.toNat / 10 % 10 ∧
    (bcdDigits v)[2].toNat = v.toNat % 10 :=
  ⟨Nat.mod_eq_of_lt (by omega), Nat.mod_eq_of_lt (by omega), Nat.mod_eq_of_lt (by omega)⟩

/-- Settles O44: a range-checked store of the three digits. -/
theorem bcdStoresTheDigits : Obligations.BcdStoresTheDigits := by
  refine fun x => ⟨decode_encode (.ldBX x), fun s hm hr => ?_, fun s a h => ⟨_, withDataRange_lowest h _, rfl⟩⟩
  have hlen := length_bcdDigits (s.reg x)
  obtain ⟨t, ht, hpc, hstored, hframe⟩ := withDataRange_writeBytes_stores hlen (by omega) hm hr
  obtain ⟨hundreds, tens, ones⟩ := toNat_bcdDigits (s.reg x)
  exact ⟨t, ht, hpc, (congrArg BitVec.toNat (hstored 0 (by omega))).trans hundreds,
    (congrArg BitVec.toNat (hstored 1 (by omega))).trans tens,
    (congrArg BitVec.toNat (hstored 2 (by omega))).trans ones, hframe⟩

/-- Settles O45: a range-checked store of `V0` to `Vx`. -/
theorem storeWritesTheRegisters : Obligations.StoreWritesTheRegisters := by
  refine fun x => ⟨decode_encode (.ldMemX x), fun s hm hr => ?_, fun s a h => ⟨_, withDataRange_lowest h _, rfl⟩⟩
  have hlen := State.length_regsUpTo s x
  obtain ⟨t, ht, hpc, hstored, hframe⟩ := withDataRange_writeBytes_stores hlen (by omega) hm hr
  refine ⟨t, ht, hpc, fun r hrx => ?_, hframe⟩
  rw [hstored r.toNat (by omega), State.getElem_regsUpTo, BitVec.ofNat_toNat, BitVec.setWidth_eq]

/-! ### A run of bytes loaded -/

theorem mem_upTo {x r : RegIdx} : r ∈ upTo x ↔ r.toNat ≤ x.toNat := by
  simp only [upTo, List.mem_map, List.mem_range]
  constructor
  · rintro ⟨k, hk, rfl⟩
    rw [BitVec.toNat_ofNat]
    exact (Nat.mod_le ..).trans (Nat.le_of_lt_succ hk)
  · intro h
    exact ⟨r.toNat, by omega, by simp⟩

/-- The registers after a load of `V0` to `Vx`: those take the bytes from `a` on, and the others keep their values. -/
theorem State.reg_setRegs_readBytes (s t : State) (a : Nat) (x r : RegIdx) :
    (s.setRegs 0 (t.readBytes a (x.toNat + 1))).reg r = if r.toNat ≤ x.toNat then t.readByte (a + r.toNat) else s.reg r := by
  have hfits : 0 + (t.readBytes a (x.toNat + 1)).length ≤ 16 := by
    rw [State.length_readBytes]
    omega
  rw [State.reg_setRegs _ 0 s r hfits]
  simp

theorem onlyRegs_advance_setRegs_readBytes (s : State) (a : Nat) (x : RegIdx) :
    OnlyRegs (upTo x) s (s.advance.setRegs 0 (s.readBytes a (x.toNat + 1))) := by
  refine ⟨?_, fun r hr => ?_⟩
  · rw [State.setRegs_pc]
    exact State.advance_setRegs_eq s 0 _
  · rw [State.reg_setRegs_readBytes, if_neg (mt mem_upTo.2 hr), State.reg_advance]

/-- Settles O46: the range check, then one register write for each byte read. -/
theorem loadReadsTheRegisters : Obligations.LoadReadsTheRegisters := by
  refine fun x => ⟨decode_encode (.ldXMem x), fun s hr => ?_, fun s a h => ⟨_, withDataRange_lowest h _, rfl⟩⟩
  refine ⟨_, withDataRange_inRange hr _, State.setRegs_pc .., fun r hrx => ?_, onlyRegs_advance_setRegs_readBytes s (s.ea 0) x⟩
  exact (State.reg_setRegs_readBytes ..).trans (if_pos hrx)

end Sys2Proof.Machine
end

section
/-! PROOF. The keys and timers (45_keys_timers.md): a skip on a key number that is checked first, the timer transfers, and the
key wait. -/

namespace Sys2Proof.Machine

open Sys2Proof

/-! ### A skip on a key -/

/-- A skip where the key is pressed (45_keys_timers.md R125). -/
theorem advanceSkip_down (s : State) (down : Bool) :
    OnlyPc s (s.advanceSkip down) ∧ (s.advanceSkip down).pc = if down = true then s.pc + 4 else s.pc + 2 :=
  ⟨onlyPc_advanceSkip s down, by simp [BitVec.add_assoc]⟩

/-- A skip where the key is not pressed (45_keys_timers.md R126). -/
theorem advanceSkip_up (s : State) (down : Bool) :
    OnlyPc s (s.advanceSkip (!down)) ∧ (s.advanceSkip (!down)).pc = if down = true then s.pc + 2 else s.pc + 4 := by
  refine ⟨onlyPc_advanceSkip s _, ?_⟩
  cases down <;> simp [BitVec.add_assoc]

theorem execSkp_of_le {x : RegIdx} {s : State} (h : (s.reg x).toNat ≤ 15) :
    execSkp x s = .next (s.advanceSkip (s.keyDown (s.reg x).toNat)) := withKey_le h _

theorem execSknp_of_le {x : RegIdx} {s : State} (h : (s.reg x).toNat ≤ 15) :
    execSknp x s = .next (s.advanceSkip (!s.keyDown (s.reg x).toNat)) := withKey_le h _

theorem execSkp_of_gt {x : RegIdx} {s : State} (h : 15 < (s.reg x).toNat) :
    execSkp x s = raise .keyOutOfRange (s.reg x).toNat s := withKey_gt h _

theorem execSknp_of_gt {x : RegIdx} {s : State} (h : 15 < (s.reg x).toNat) :
    execSknp x s = raise .keyOutOfRange (s.reg x).toNat s := withKey_gt h _

/-- Settles O48: a key number up to 15 gives the latch's bit to the skip, and any other takes the fault. -/
theorem skipsOnAKey : Obligations.SkipsOnAKey :=
  fun x => ⟨decode_encode (.skp x), decode_encode (.sknp x),
    fun s hle => ⟨⟨_, execSkp_of_le hle, advanceSkip_down s _⟩, ⟨_, execSknp_of_le hle, advanceSkip_up s _⟩⟩,
    fun _ hgt => ⟨⟨_, execSkp_of_gt hgt, rfl⟩, ⟨_, execSknp_of_gt hgt, rfl⟩⟩⟩

/-! ### The timer transfers -/

/-- Settles O49: each transfer is the advance and one write. -/
theorem timerTransfers : Obligations.TimerTransfers := by
  refine fun x => ⟨decode_encode (.ldXDt x), decode_encode (.ldDtX x), decode_encode (.ldStX x), fun s => ⟨?_, ?_, ?_⟩⟩
  · exact ⟨_, rfl, rfl, State.reg_setReg_self _ x _, onlyRegs_advance_setReg s x _⟩
  · exact ⟨_, rfl, rfl, rfl, rfl⟩
  · exact ⟨_, rfl, rfl, rfl, rfl⟩

/-! ### The key wait -/

/-- Settles O50: the search for the least pressed key finds none, or `p`, which fits in a byte. -/
theorem keyWaitPolls : Obligations.KeyWaitPolls := by
  refine fun x => ⟨decode_encode (.ldXK x), fun s hnone => ?_, fun s p hp hdown hleast => ?_⟩
  · exact execLdXK_of_noKey (State.leastKey_none.2 hnone) x
  · have hkey : s.leastKey = some p := State.leastKey_some.2 ⟨hp, hdown, hleast⟩
    refine ⟨_, execLdXK_of_leastKey hkey x, rfl, ?_, onlyRegs_advance_setReg s x _⟩
    rw [State.reg_setReg_self, BitVec.toNat_ofNat]
    omega

end Sys2Proof.Machine
end

section
/-! PROOF. The exceptions (60_exceptions.md): what a latched record says of the Cycle that raised it, what clears the latch, and
the host's Tick and SetKeys. -/

namespace Sys2Proof.Machine

open Sys2Proof

/-! ### A record in the latch -/

theorem TookFault.eq_of_fault {cause : FaultCause} {info : Nat} {s t : State} {r : FaultRecord} (h : TookFault cause info s t)
    (hr : t.fault = some r) : r = ⟨cause, s.pc, info⟩ := by
  rw [h] at hr
  exact (Option.some.inj hr).symm

/-- An instruction that completes keeps the latch, so a record found in an empty one is a fault the instruction can raise. -/
theorem exec_latched {i : Instr} {s t : State} {r : FaultRecord} (hf : s.fault = none) (h : exec i s = .next t)
    (hr : t.fault = some r) : CanRaise i s r.cause r.info ∧ TookFault r.cause r.info s t := by
  rcases exec_next h with ⟨cause, info, hraise, ht⟩ | ⟨hw, -⟩
  · obtain rfl := ht.eq_of_fault hr
    exact ⟨hraise, ht⟩
  · cases hr.symm.trans (hw.fault_eq.trans hf)

/-- A record that fetch-execute leaves in an empty latch was taken by the fetch, by the decoder or by the instruction, each on
the state at the start of the Cycle. -/
theorem fetchExecute_latched {s t : State} {r : FaultRecord} (hf : s.fault = none) (h : fetchExecute s = .next t)
    (hr : t.fault = some r) : ∃ cause info, TookFault cause info s t := by
  rcases fetchExecute_cases s with ⟨-, e⟩ | ⟨w, -, -, e⟩ | ⟨i, -, e⟩ <;> rw [e] at h
  · exact ⟨_, _, (Host.Outcome.next.inj h).symm⟩
  · exact ⟨_, _, (Host.Outcome.next.inj h).symm⟩
  · exact ⟨_, _, (exec_latched hf h hr).2⟩

/-- Settles O11: whatever raises takes the fault on the state at the start of the Cycle, and the Cycle returns what is latched. -/
theorem faultsArePrecise : Obligations.FaultsArePrecise := by
  intro s t hf hc h r hr
  rcases step_nextIsCycle hc h with ⟨rec, q, rest, hlatched, -⟩ | ⟨-, q, d, u, hu, rfl⟩
  · cases hlatched.symm.trans hf
  · obtain ⟨cause, info, ht⟩ :=
      fetchExecute_latched (s := { s with draws := d, inputs := s.inputs.tail, rnd := q }) hf hu hr
    obtain rfl := ht.eq_of_fault hr
    rw [ht]
    exact ⟨rfl, rfl, rfl⟩

/-- Settles O12: the record is one that `CanRaise` allows the instruction. -/
theorem eachCauseHasItsInstructions : Obligations.EachCauseHasItsInstructions := by
  intro i s t hf h r hr
  have hraise : CanRaise i s r.cause r.info := (exec_latched hf h hr).1
  cases i with
  | ret =>
    obtain ⟨hcause, h0, hinfo⟩ := hraise
    exact .inl ⟨hcause, rfl, by simp [hinfo, h0]⟩
  | call nnn =>
    obtain ⟨hcause, -, hinfo⟩ := hraise
    exact .inr (.inl ⟨hcause, ⟨nnn, rfl⟩, hinfo⟩)
  | drw _ _ _ | ldBX _ | ldMemX _ | ldXMem _ =>
    obtain ⟨hcause, -, -, hgt, -⟩ := hraise
    exact .inr (.inr (.inl ⟨hcause, hgt, by simp⟩))
  | skp x | sknp x =>
    obtain ⟨hcause, hgt, hinfo⟩ := hraise
    exact .inr (.inr (.inr ⟨hcause, x, by simp, hinfo, hinfo ▸ hgt⟩))
  | _ => exact hraise.elim

/-- Settles O13: the step's two laws for a fault latched. -/
theorem latchedCycleIsTheSameFault : Obligations.LatchedCycleIsTheSameFault :=
  fun _ _ hf => ⟨fun _ _ hi => step_cycle_latched hi hf, fun hi => step_nil_latched hi hf⟩

/-! ### What clears the latch -/

/-- A Load returns LOAD_OK, with the latch empty and nothing else but memory and `pc` written, or returns another result and
keeps the latch (70_reset_and_hazards.md R155-R157). -/
theorem load_loadOk_or_keeps_fault (source : ImageSource) (s : State) :
    ((load source s).out = some (.load .loadOk) ∧
      (load source s).observe = { s.observe with mem := (load source s).mem, pc := 0x200, fault := none }) ∨
    ((load source s).out ≠ some (.load .loadOk) ∧ (load source s).fault = s.fault) := by
  cases source with
  | readFailed kind => exact .inr ⟨by simp [load], rfl⟩
  | bytes image =>
    by_cases h : image.length > Config.loadLimit
    · exact .inr (by simp [load, h])
    · exact .inl (by simp [load, h, State.observe])

/-- Settles O14: a latched Cycle, Tick, SetKeys, Observe and a Load that fails keep the latch; PowerOn and LOAD_OK empty it. -/
theorem onlyPowerOnAndLoadClearTheLatch : Obligations.OnlyPowerOnAndLoadClearTheLatch := by
  refine ⟨fun s t r hf h hne => ?_, fun s t rest hi h => ?_, fun s t src rest hi h hout => ?_⟩
  · rcases step_cases s with hc | ⟨rest, hop⟩
    · rcases step_nextIsCycle hc h with ⟨rec, q, rest, -, -, rfl⟩ | ⟨hnone, -⟩
      · exact absurd hf hne
      · cases hf.symm.trans hnone
    · rcases hop with ⟨hi, e⟩ | ⟨src, hi, e⟩ | ⟨k, -, e⟩ | ⟨-, e⟩ | ⟨-, e⟩ <;>
        obtain rfl := Host.Outcome.next.inj (e.symm.trans h)
      · exact .inl ⟨rest, hi, rfl⟩
      · rcases load_loadOk_or_keeps_fault src { s with inputs := rest } with ⟨hout, hobs⟩ | ⟨-, hkept⟩
        · exact .inr ⟨src, rest, hi, hout, hobs⟩
        · exact absurd (hkept.trans hf) hne
      all_goals exact absurd hf hne
  · obtain rfl := Host.Outcome.next.inj ((step_cons hi).symm.trans h)
    rfl
  · obtain rfl := Host.Outcome.next.inj ((step_cons hi).symm.trans h)
    rcases load_loadOk_or_keeps_fault src { s with inputs := rest } with ⟨-, hobs⟩ | ⟨hfailed, -⟩
    · exact congrArg Observation.fault hobs
    · exact absurd hout hfailed

/-! ### Tick and SetKeys -/

@[simp] theorem toNat_countDown (v : Byte) : (countDown v).toNat = v.toNat - 1 := by
  unfold countDown
  split <;> bv_omega

/-- Settles O16: a Tick counts both timers down, and writes nothing else that the host observes. -/
theorem tickDecrementsTheTimers : Obligations.TickDecrementsTheTimers :=
  fun s _ hi => ⟨_, step_cons hi, rfl, toNat_countDown s.DT, toNat_countDown s.ST, rfl⟩

/-- Settles O17: the latch is the word given, so key `j` is its bit `j`. -/
theorem setKeysSetsTheLatch : Obligations.SetKeysSetsTheLatch :=
  fun _ _ _ hi => ⟨_, step_cons hi, fun _ _ => rfl, rfl, rfl⟩

end Sys2Proof.Machine
end

section
/-! PROOF. Reset and the machine's hazards (70_reset_and_hazards.md): what a Load copies and when it changes nothing, PowerOn,
and what moves the delay timer. -/

namespace Sys2Proof.Machine

open Sys2Proof

/-! ### Load and PowerOn -/

theorem load_of_le {image : List Byte} (h : image.length ≤ Config.loadLimit) (s : State) :
    load (.bytes image) s =
      { (s.writeBytes Config.progBase image).clearFault with pc := 0x200, out := some (.load .loadOk) } :=
  if_neg (Nat.not_lt.2 h)

theorem load_of_gt {image : List Byte} (h : Config.loadLimit < image.length) (s : State) :
    load (.bytes image) s = { s with out := some (.load (.romTooLarge image.length)) } :=
  if_pos h

/-- A byte outside a run just written reads as before. -/
theorem State.readByte_writeBytes_outside {s : State} {a b : Nat} {vs : List Byte} (hm : s.mem.wf)
    (hlen : a + vs.length ≤ Config.memSize) (hb : ¬(a ≤ b ∧ b < a + vs.length)) :
    (s.writeBytes a vs).readByte b = s.readByte b := by
  rw [State.readByte_writeBytes vs a s b hm hlen, dif_neg (by omega)]

/-- Settles O18: an image within the limit ends below 0x1000, so the Load is one run of stores; any other Load writes its
result alone. -/
theorem loadCopiesTheImageOrChangesNothing : Obligations.LoadCopiesTheImageOrChangesNothing := by
  refine ⟨fun s image rest hm hi hle => ?_, fun s image rest hi hgt => ?_, fun s kind rest hi => ?_⟩
  · have hfits : Config.progBase + image.length ≤ Config.memSize :=
      (Nat.add_le_add_left hle Config.progBase).trans (by decide)
    refine ⟨_, (step_cons hi).trans (congrArg Host.Outcome.next (load_of_le hle { s with inputs := rest })), rfl, rfl, rfl,
      fun k hk => ?_, fun a ha => ?_, ?_⟩
    · exact State.readByte_writeBytes_add (s := { s with inputs := rest }) hm hfits hk
    · exact State.readByte_writeBytes_outside (s := { s with inputs := rest }) hm hfits ha
    · simp [State.observe]
  · exact ⟨_, (step_cons hi).trans (congrArg Host.Outcome.next (load_of_gt hgt { s with inputs := rest })), rfl, rfl⟩
  · exact ⟨_, step_cons hi, rfl, rfl⟩

/-- Settles O19: PowerOn keeps of the state before only fields of the model's own, which the host does not observe. -/
theorem powerOnResets : Obligations.PowerOnResets :=
  fun _ _ hi => ⟨_, step_cons hi, rfl, rfl⟩

/-! ### The delay timer -/

/-- Fetch-execute writes DT only through Fx15: neither fault does, nor any other instruction. -/
theorem fetchExecute_keeps_DT {s t : State} (hother : ∀ x, ¬Fetches s (.ldDtX x)) (h : fetchExecute s = .next t) :
    t.DT = s.DT := by
  rcases fetchExecute_cases s with ⟨-, e⟩ | ⟨w, -, -, e⟩ | ⟨i, hi, e⟩ <;> rw [e] at h
  · exact Host.Outcome.next.inj h ▸ rfl
  · exact Host.Outcome.next.inj h ▸ rfl
  · obtain ⟨-, -, -, hDT, -⟩ := onlyTheNamedInstructionsWrite i s t h
    exact hDT.resolve_right fun ⟨x, hx⟩ => hother x (hx ▸ hi)

theorem load_DT (source : ImageSource) (s : State) : (load source s).DT = s.DT := by
  rcases load_cases source s with ⟨image, -, e⟩ | ⟨r, e⟩ <;> simp [e]

/-- What a step can do to DT when it is neither a PowerOn nor a Cycle that fetches Fx15: keep it, or, as a Tick, count it
down. -/
theorem step_DT {s t : State} (hstep : step s = .next t) (hpower : ∀ rest, s.inputs ≠ .powerOn :: rest)
    (hother : NextIsCycle s → ∀ x, ¬Fetches s (.ldDtX x)) :
    t.DT = s.DT ∨ (∃ rest, s.inputs = .tick :: rest) ∧ t.DT = countDown s.DT := by
  rcases step_cases s with hc | ⟨rest, hop⟩
  · rcases step_nextIsCycle hc hstep with ⟨_, _, _, -, -, rfl⟩ | ⟨-, q, d, u, hu, rfl⟩
    · exact .inl rfl
    · have hkept : u.DT = s.DT :=
        fetchExecute_keeps_DT (s := { s with draws := d, inputs := s.inputs.tail, rnd := q }) (hother hc) hu
      exact .inl hkept
  · rcases hop with ⟨hi, -⟩ | ⟨src, -, e⟩ | ⟨k, -, e⟩ | ⟨hi, e⟩ | ⟨-, e⟩
    · exact absurd hi (hpower rest)
    all_goals obtain rfl := Host.Outcome.next.inj (e.symm.trans hstep)
    · exact .inl (load_DT src _)
    · exact .inl rfl
    · exact .inr ⟨⟨rest, hi⟩, rfl⟩
    · exact .inl rfl

/-- Settles O56: a step that does not keep DT is a Tick, and one count down takes off at most 1. -/
theorem dtMovesOnlyByFx15AndTick : Obligations.DtMovesOnlyByFx15AndTick := by
  intro s t hstep hpower hother
  rcases step_DT hstep hpower hother with hDT | ⟨⟨rest, hi⟩, hDT⟩
  · rw [hDT]
    exact ⟨le_rfl, Nat.le_succ _, fun _ => rfl⟩
  · rw [hDT, toNat_countDown]
    exact ⟨by omega, by omega, fun hnoTick => absurd hi (hnoTick rest)⟩

end Sys2Proof.Machine
end

section
/-! PROOF. The tables of 10_state.md for every instruction: which registers each writes and what those depend on (R22), and how
each leaves `pc` (R24). -/

namespace Sys2Proof.Machine

open Sys2Proof

/-! ### The program counter -/

/-- Settles O52: an instruction that completes leaves the latch empty and `pc` as the table says, and a fault moves no `pc`. -/
theorem pcAfterEachInstruction : Obligations.PcAfterEachInstruction := by
  intro i s t hf hsp h
  rcases exec_next h with ⟨cause, info, -, ht⟩ | ⟨hw, hafter⟩
  · rw [ht]
    exact ⟨(nomatch ·), fun _ => rfl⟩
  · have hnone : t.NoFault := hw.fault_eq.trans hf
    exact ⟨fun _ => hafter hsp, fun hlatched => absurd hnone hlatched⟩

/-! ### The registers written -/

/-- Fx0A with a key pressed writes `Vx` (10_state.md R22: "only when a key is pressed"). -/
theorem regsWritten_ldXK_of_leastKey {s : State} {k : Nat} (hk : s.leastKey = some k) (x : RegIdx) :
    regsWritten (.ldXK x) s = [x] := by
  have hkeys : s.keys ≠ 0 := fun h0 => by simp [State.leastKey_none_iff_keys.2 h0] at hk
  exact if_neg hkeys

@[simp] theorem State.reg_advanceSkip (s : State) (c : Bool) (r : RegIdx) : (s.advanceSkip c).reg r = s.reg r := by
  cases c <;> rfl

/-- A register outside the table's column "writes V" keeps its value, whether the instruction completes or faults. The last
case has the instructions whose fields (`WritesOnlyItsFields`) are all other than `V`. -/
theorem exec_keeps_reg {i : Instr} {s t : State} (h : exec i s = .next t) {r : RegIdx} (hr : r ∉ regsWritten i s) :
    t.reg r = s.reg r := by
  cases i with
  | ldImm x _ | addImm x _ | ldReg x _ | orReg x _ | andReg x _ | xorReg x _ | rnd x _ | ldXDt x =>
    obtain rfl := Host.Outcome.next.inj h
    exact (onlyRegs_advance_setReg s x _).2 r hr
  | addReg x _ | subReg x _ | subnReg x _ | shr x _ | shl x _ =>
    obtain rfl := Host.Outcome.next.inj h
    exact (onlyRegs_writeFlagResult_advance _ x _ _ s).2 r hr
  | drw _ _ _ =>
    rcases withDataRange_next h with ⟨-, rfl⟩ | ⟨a, -, rfl⟩
    · exact State.reg_setReg_ne _ (List.ne_of_not_mem_cons hr) _
    · rfl
  | ldXMem x =>
    rcases withDataRange_next h with ⟨-, rfl⟩ | ⟨a, -, rfl⟩
    · exact (onlyRegs_advance_setRegs_readBytes s (s.ea 0) x).2 r hr
    · rfl
  | ldXK x =>
    rcases execLdXK_next h with ⟨-, rfl⟩ | ⟨k, hk, rfl⟩
    · rfl
    · rw [regsWritten_ldXK_of_leastKey hk] at hr
      exact (onlyRegs_advance_setReg s x _).2 r hr
  | seImm _ _ | sneImm _ _ | seReg _ _ | sneReg _ _ =>
    obtain rfl := Host.Outcome.next.inj h
    exact State.reg_advanceSkip s _ r
  | skp _ =>
    rcases withKey_next h with ⟨-, rfl⟩ | ⟨-, rfl⟩
    · exact State.reg_advanceSkip s _ r
    · rfl
  | sknp _ =>
    rcases withKey_next (body := fun down => s.advanceSkip (!down)) h with ⟨-, rfl⟩ | ⟨-, rfl⟩
    · exact State.reg_advanceSkip s _ r
    · rfl
  | jp _ | jpV0 _ =>
    obtain rfl := Host.Outcome.next.inj h
    rfl
  | _ =>
    rcases exec_next h with ⟨_, _, -, ht⟩ | ⟨ht, -⟩ <;> (rw [ht]; rfl)

/-! ### The registers read -/

/-- The state with another register file. -/
def State.withV (s : State) (V : Vector Byte 16) : State := { s with V := V }

theorem State.writeBytes_withV (V : Vector Byte 16) (vs : List Byte) :
    ∀ (a : Nat) (s : State), (s.withV V).writeBytes a vs = (s.writeBytes a vs).withV V := by
  induction vs with
  | nil => intro _ _; rfl
  | cons v vs ih => exact fun a s => ih (a + 1) (s.writeByte a v)

theorem State.advanceSkip_withV (V : Vector Byte 16) (c : Bool) (s : State) :
    (s.withV V).advanceSkip c = (s.advanceSkip c).withV V := by
  cases c <;> rfl

/-- `res` is a next state that differs from `t` in registers only and, where `t` took no fault, agrees with it on those
written. -/
def AnswersAlike (written : List RegIdx) (t : State) (res : Result) : Prop :=
  ∃ t', res = .next t' ∧ t' = { t with V := t'.V } ∧ (t.NoFault → ∀ r, r ∈ written → t'.reg r = t.reg r)

theorem answersAlike_withV (t : State) (V : Vector Byte 16) : AnswersAlike [] t (.next (t.withV V)) :=
  ⟨_, rfl, rfl, fun _ _ hr => nomatch hr⟩

/-- A fault is taken alike, whatever the registers are. -/
theorem answersAlike_raise {cause : FaultCause} {info : Nat} {s t : State} (h : TookFault cause info s t)
    (V : Vector Byte 16) (written : List RegIdx) : AnswersAlike written t (raise cause info (s.withV V)) := by
  subst h
  exact ⟨_, rfl, rfl, fun hnone => nomatch hnone⟩

theorem answersAlike_setReg (s : State) (V : Vector Byte 16) (x : RegIdx) (v : Byte) :
    AnswersAlike [x] (s.setReg x v) (.next ((s.withV V).setReg x v)) := by
  refine ⟨_, rfl, rfl, fun _ r hr => ?_⟩
  obtain rfl := List.mem_singleton.1 hr
  rw [State.reg_setReg_self, State.reg_setReg_self]

theorem reg_writeFlagResult_congr (order : Config.FlagWriteOrder) (x : RegIdx) (flag : Bool) (res : Byte) (s s' : State)
    {r : RegIdx} (hr : r ∈ [x, VF]) :
    (writeFlagResult order x flag res s').reg r = (writeFlagResult order x flag res s).reg r := by
  have hr : r = x ∨ r = VF := by simpa using hr
  cases order <;> rcases hr with rfl | rfl <;> simp [writeFlagResult, State.reg_setReg]

theorem answersAlike_finishFlag (s : State) (V : Vector Byte 16) (x : RegIdx) (fr : Bool × Byte) :
    AnswersAlike [x, VF] (writeFlagResult flagWriteOrder x fr.1 fr.2 s.advance) (finishFlag x fr (s.withV V)) :=
  ⟨_, rfl, rfl, fun _ _ hr => reg_writeFlagResult_congr _ x fr.1 fr.2 _ _ hr⟩

theorem answersAlike_setRegs_readBytes (s : State) (V : Vector Byte 16) (a : Nat) (x : RegIdx) :
    AnswersAlike (upTo x) (s.advance.setRegs 0 (s.readBytes a (x.toNat + 1)))
      (.next ((s.withV V).advance.setRegs 0 ((s.withV V).readBytes a (x.toNat + 1)))) := by
  refine ⟨_, rfl, ?_, fun _ r hr => ?_⟩
  · rw [State.advance_setRegs_eq, State.advance_setRegs_eq s]
    rfl
  · have hle := mem_upTo.1 hr
    rw [State.reg_setRegs_readBytes, State.reg_setRegs_readBytes, if_pos hle, if_pos hle]
    rfl

/-- The range check reads no register. -/
theorem answersAlike_withDataRange {n : Nat} {s t body : State} {V : Vector Byte 16} {res : Result} {written : List RegIdx}
    (hbody : AnswersAlike written body res) (h : withDataRange n s (.next body) = .next t) :
    AnswersAlike written t (withDataRange n (s.withV V) res) := by
  rcases withDataRange_next h with ⟨hr, rfl⟩ | ⟨a, ha, ht⟩
  · rwa [withDataRange_inRange (s := s.withV V) hr]
  · rw [withDataRange_lowest (s := s.withV V) ha]
    exact answersAlike_raise ht V written

/-- The key check reads one register, given here by its value. -/
theorem answersAlike_withKey {k : Byte} {s t : State} (V : Vector Byte 16) (skip : Bool → Bool)
    (h : withKey k s (fun down => .next (s.advanceSkip (skip down))) = .next t) :
    AnswersAlike [] t (withKey k (s.withV V) (fun down => .next ((s.withV V).advanceSkip (skip down)))) := by
  rcases withKey_next (body := fun down => s.advanceSkip (skip down)) h with ⟨hk, rfl⟩ | ⟨hk, ht⟩
  · rw [withKey_le (s := s.withV V) hk, State.advanceSkip_withV]
    exact answersAlike_withV _ V
  · rw [withKey_gt (s := s.withV V) hk]
    exact answersAlike_raise ht V []

theorem State.regsUpTo_congr {s s' : State} {x : RegIdx} (h : ∀ r, r ∈ upTo x → s'.reg r = s.reg r) :
    s'.regsUpTo x = s.regsUpTo x :=
  List.map_congr_left fun _ hk => h _ (List.mem_map_of_mem hk)

/-- What an instruction does depends on no register outside the table's column "reads V": with any register file that agrees
on those, it answers alike. -/
theorem exec_withV {i : Instr} {s t : State} {V : Vector Byte 16}
    (hread : ∀ r, r ∈ regsRead i → (s.withV V).reg r = s.reg r)
    (h : exec i s = .next t) : AnswersAlike (regsWritten i s) t (exec i (s.withV V)) := by
  cases i with
  | ret =>
    rcases execRet_next h with ⟨h0, ht⟩ | ⟨h0, ret, hret, rfl⟩
    · rw [exec, execRet_of_empty (s := s.withV V) h0]
      exact answersAlike_raise ht V []
    · rw [exec, execRet_of_popSlot (s := s.withV V) h0 hret]
      exact answersAlike_withV _ V
  | call nnn =>
    rcases execCall_next h with ⟨hfull, ht⟩ | ⟨hroom, rfl⟩
    · rw [exec, execCall_of_full (s := s.withV V) hfull nnn]
      exact answersAlike_raise ht V []
    · rw [exec, execCall_of_room (s := s.withV V) hroom nnn]
      exact answersAlike_withV _ V
  | cls | jp _ | ldI _ =>
    obtain rfl := Host.Outcome.next.inj h
    exact answersAlike_withV _ V
  | jpV0 _ =>
    obtain rfl := Host.Outcome.next.inj h
    simp only [exec, execJpV0, hread 0 (.head _)]
    exact answersAlike_withV _ V
  | addIX x | ldFX x | ldDtX x | ldStX x =>
    obtain rfl := Host.Outcome.next.inj h
    simp only [exec, execAddIX, execLdFX, execLdDtX, execLdStX, hread x (.head _)]
    exact answersAlike_withV _ V
  | seImm x _ | sneImm x _ =>
    obtain rfl := Host.Outcome.next.inj h
    simp only [exec, execSeImm, execSneImm, hread x (.head _), State.advanceSkip_withV]
    exact answersAlike_withV _ V
  | seReg x y | sneReg x y =>
    obtain rfl := Host.Outcome.next.inj h
    simp only [exec, execSeReg, execSneReg, hread x (.head _), hread y (.tail _ (.head _)), State.advanceSkip_withV]
    exact answersAlike_withV _ V
  | skp x =>
    simp only [exec, execSkp, hread x (.head _)]
    exact answersAlike_withKey V id h
  | sknp x =>
    simp only [exec, execSknp, hread x (.head _)]
    exact answersAlike_withKey V not h
  | ldImm x _ | rnd x _ | ldXDt x =>
    obtain rfl := Host.Outcome.next.inj h
    exact answersAlike_setReg s.advance V x _
  | addImm x _ =>
    obtain rfl := Host.Outcome.next.inj h
    simp only [exec, execAddImm, hread x (.head _)]
    exact answersAlike_setReg s.advance V x _
  | ldReg x y =>
    obtain rfl := Host.Outcome.next.inj h
    simp only [exec, execLdReg, hread y (.head _)]
    exact answersAlike_setReg s.advance V x _
  | orReg x y | andReg x y | xorReg x y =>
    obtain rfl := Host.Outcome.next.inj h
    simp only [exec, execOrReg, execAndReg, execXorReg, hread x (.head _), hread y (.tail _ (.head _))]
    exact answersAlike_setReg s.advance V x _
  | addReg x y | subReg x y | subnReg x y =>
    obtain rfl := Host.Outcome.next.inj h
    simp only [exec, execAddReg, execSubReg, execSubnReg, hread x (.head _), hread y (.tail _ (.head _))]
    exact answersAlike_finishFlag s V x _
  | shr x _ | shl x _ =>
    obtain rfl := Host.Outcome.next.inj h
    simp only [exec, execShr, execShl, hread x (.head _)]
    exact answersAlike_finishFlag s V x _
  | drw x y n =>
    simp only [exec, execDrw, hread x (.head _), hread y (.tail _ (.head _))]
    exact answersAlike_withDataRange (answersAlike_setReg { s.advance with disp := _ } V VF _) h
  | ldBX x =>
    simp only [exec, execLdBX, hread x (.head _)]
    refine answersAlike_withDataRange ?_ h
    exact State.writeBytes_withV V _ _ s.advance ▸ answersAlike_withV _ V
  | ldMemX x =>
    simp only [exec, execLdMemX, State.regsUpTo_congr hread]
    refine answersAlike_withDataRange ?_ h
    exact State.writeBytes_withV V _ _ s.advance ▸ answersAlike_withV _ V
  | ldXMem x => exact answersAlike_withDataRange (answersAlike_setRegs_readBytes s V (s.ea 0) x) h
  | ldXK x =>
    rcases execLdXK_next h with ⟨hk, rfl⟩ | ⟨k, hk, rfl⟩
    · rw [regsWritten, if_pos (State.leastKey_none_iff_keys.1 hk), exec, execLdXK_of_noKey (s := t.withV V) hk x]
      exact answersAlike_withV t V
    · rw [regsWritten_ldXK_of_leastKey hk, exec, execLdXK_of_leastKey (s := s.withV V) hk x]
      exact answersAlike_setReg s.advance V x _

/-- Settles O51: other registers keep their values, and a state that differs in registers only is `s.withV` of its register
file. -/
theorem registersReadAndWritten : Obligations.RegistersReadAndWritten := by
  refine ⟨fun i s t h r hr => exec_keeps_reg h hr, fun i s s' t _ hs hread h => ?_⟩
  rw [hs] at hread ⊢
  exact exec_withV hread h

end Sys2Proof.Machine
end
